-- ==== Sys2Proof/Word.lean ====
section
/-! DEFINITION. The byte and the register number: the only two word types of this machine
(spec/10_state.md R20, R22; spec/20_memory.md R44). -/

namespace Sys2Proof

/-- One byte: the width of a register, of FL, of a memory cell and of an output item
(00_scope.md R5: `BYTE`, `REG_WIDTH`, `FL_WIDTH`, `OUT_WIDTH`). -/
abbrev Byte := BitVec 8

/-- A register number, 0 to 7 (10_state.md R20). A register-index operand byte above 7 names no
register and is turned away by the decoder (R23, R71), so no instruction holds one. -/
abbrev RegIndex := Fin 8

end Sys2Proof
end

