-- ==== Sys2Proof/Syntax.lean ====
section
/-! DEFINITION. The twelve instructions (spec/30_encoding.md R60, R64, R74; spec/opcode_table.json):
one constructor per row of the opcode table, register operands as register numbers, LDI's second
operand as the immediate byte. -/

namespace Sys2Proof

/-- The instruction set. Operands stand in the order of the operand bytes (R75). -/
inductive Instr where
  /-- HLT: halt (R160). -/
  | hlt
  /-- RET: return (R142). -/
  | ret
  /-- PUSH r (R130). -/
  | push (r : RegIndex)
  /-- POP r (R132). -/
  | pop (r : RegIndex)
  /-- PRN r: print a register (R102). -/
  | prn (r : RegIndex)
  /-- CALL r: call the address in a register (R140). -/
  | call (r : RegIndex)
  /-- JMP r: jump to the address in a register (R144). -/
  | jmp (r : RegIndex)
  /-- JEQ r: jump if equal (R146). -/
  | jeq (r : RegIndex)
  /-- JNE r: jump if not equal (R148). -/
  | jne (r : RegIndex)
  /-- LDI r, imm: load immediate (R100). -/
  | ldi (r : RegIndex) (imm : Byte)
  /-- MUL ra, rb (R112). -/
  | mul (ra rb : RegIndex)
  /-- CMP ra, rb (R114). -/
  | cmp (ra rb : RegIndex)
  deriving DecidableEq, Repr

end Sys2Proof
end

