-- ==== Sys2Proof/Decode.lean ====
section
/-! DEFINITION. The opcode map, the dispatcher's operand table, the decoder (total on any bytes,
rejecting by name) and the encoder (spec/30_encoding.md). -/

namespace Sys2Proof

/-- The twelve operations, the rows of the dispatcher's table (R74). -/
inductive Op where
  | hlt | ret | push | pop | prn | call | jmp | jeq | jne | ldi | mul | cmp
  deriving DecidableEq, Repr

/-- The two uses of an operand byte (R65). -/
inductive OperandKind where
  | register
  | immediate
  deriving DecidableEq, Repr

/-- When an operation skips the universal increment (R74). -/
inductive Transfer where
  | never
  | always
  /-- JEQ: when taken, E = 1. -/
  | whenEqual
  /-- JNE: when taken, E = 0. -/
  | whenNotEqual
  deriving DecidableEq, Repr

/-- Every operation, in the order of opcode_table.json. -/
def Op.all : List Op :=
  [.hlt, .ret, .push, .pop, .prn, .call, .jmp, .jeq, .jne, .ldi, .mul, .cmp]

/-- `OPCODE_MAP` (R64). PRESUMED by the spec itself (92_eei_decisions.md D2: the LS-8 values, from
general knowledge, not in source); log 5; unsafe. -/
def opcodeByte : Op → Byte
  | .hlt => 0x01
  | .ret => 0x11
  | .push => 0x45
  | .pop => 0x46
  | .prn => 0x47
  | .call => 0x50
  | .jmp => 0x54
  | .jeq => 0x55
  | .jne => 0x56
  | .ldi => 0x82
  | .mul => 0xA2
  | .cmp => 0xA7

/-- The operand kinds of R74, in the order of the operand bytes. -/
def operandKinds : Op → List OperandKind
  | .hlt => []
  | .ret => []
  | .push => [.register]
  | .pop => [.register]
  | .prn => [.register]
  | .call => [.register]
  | .jmp => [.register]
  | .jeq => [.register]
  | .jne => [.register]
  | .ldi => [.register, .immediate]
  | .mul => [.register, .register]
  | .cmp => [.register, .register]

/-- The operand count n of R74. -/
def operandCount (o : Op) : Nat := (operandKinds o).length

/-- The control-transfer mark of R74. -/
def transferMark : Op → Transfer
  | .call => .always
  | .ret => .always
  | .jmp => .always
  | .jeq => .whenEqual
  | .jne => .whenNotEqual
  | .hlt => .never
  | .push => .never
  | .pop => .never
  | .prn => .never
  | .ldi => .never
  | .mul => .never
  | .cmp => .never

/-- The AA field of an opcode byte, bits 7:6 (R61). No rule of the engine reads it (R62). -/
def aaField (opcode : Byte) : Nat := opcode.toNat / 64

/-- Dispatch by exact equality of the whole opcode byte (R63). -/
def opOf? (b : Byte) : Option Op := Op.all.find? (fun o => opcodeByte o == b)

/-- Why the decoder turns bytes away. -/
inductive DecodeError where
  /-- The instruction needs the byte at offset `k` from its opcode, and it is not there: it would stand
  past the end of memory (R70, R71). -/
  | missingByte (k : Nat)
  /-- The opcode byte is none of the twelve (R69). -/
  | unrecognizedOpcode (byte : Byte)
  /-- A register-index operand byte is above 7 (R23, R71). -/
  | invalidRegister (index : Byte)
  deriving DecidableEq, Repr

/-- Operand byte `k` (1 or 2) of an instruction whose operand bytes are `operands` (R71). -/
def operandByte (k : Nat) (operands : List Byte) : Except DecodeError Byte :=
  match operands[k - 1]? with
  | some v => .ok v
  | none => .error (.missingByte k)

/-- The check of a register-index operand (R23, R65). -/
def regOperand (v : Byte) : Except DecodeError RegIndex :=
  if h : v.toNat < 8 then .ok ⟨v.toNat, h⟩ else .error (.invalidRegister v)

/-- One operand byte, a register index. -/
def decodeReg (mk : RegIndex → Instr) (operands : List Byte) : Except DecodeError Instr := do
  let a ← operandByte 1 operands
  let r ← regOperand a
  return mk r

/-- Two operand bytes, both register indices, checked a before b, both after both are read (R71). -/
def decodeRegReg (mk : RegIndex → RegIndex → Instr) (operands : List Byte) :
    Except DecodeError Instr := do
  let a ← operandByte 1 operands
  let b ← operandByte 2 operands
  let ra ← regOperand a
  let rb ← regOperand b
  return mk ra rb

/-- Two operand bytes, a register index and an immediate; the immediate is never checked (R100, R173). -/
def decodeRegImm (mk : RegIndex → Byte → Instr) (operands : List Byte) :
    Except DecodeError Instr := do
  let a ← operandByte 1 operands
  let b ← operandByte 2 operands
  let r ← regOperand a
  return mk r b

/-- The operands of operation `o` read from the bytes after its opcode (R71, R74). -/
def decodeOperands (o : Op) (operands : List Byte) : Except DecodeError Instr :=
  match o with
  | .hlt => .ok .hlt
  | .ret => .ok .ret
  | .push => decodeReg .push operands
  | .pop => decodeReg .pop operands
  | .prn => decodeReg .prn operands
  | .call => decodeReg .call operands
  | .jmp => decodeReg .jmp operands
  | .jeq => decodeReg .jeq operands
  | .jne => decodeReg .jne operands
  | .ldi => decodeRegImm .ldi operands
  | .mul => decodeRegReg .mul operands
  | .cmp => decodeRegReg .cmp operands

/-- The decoder, in the order of R71: the opcode, then the operand bytes it needs, then the register
indices. Bytes after the instruction's own are not looked at. -/
def decode : List Byte → Except DecodeError Instr
  | [] => .error (.missingByte 0)
  | b :: operands =>
    match opOf? b with
    | none => .error (.unrecognizedOpcode b)
    | some o => decodeOperands o operands

/-- The operation of an instruction. -/
def Instr.op : Instr → Op
  | .hlt => .hlt
  | .ret => .ret
  | .push _ => .push
  | .pop _ => .pop
  | .prn _ => .prn
  | .call _ => .call
  | .jmp _ => .jmp
  | .jeq _ => .jeq
  | .jne _ => .jne
  | .ldi _ _ => .ldi
  | .mul _ _ => .mul
  | .cmp _ _ => .cmp

/-- The operand byte that names a register (R65). -/
def regByte (r : RegIndex) : Byte := BitVec.ofNat 8 r.val

/-- The operand bytes of an instruction, in order (R45, R60). -/
def operandBytes : Instr → List Byte
  | .hlt => []
  | .ret => []
  | .push r => [regByte r]
  | .pop r => [regByte r]
  | .prn r => [regByte r]
  | .call r => [regByte r]
  | .jmp r => [regByte r]
  | .jeq r => [regByte r]
  | .jne r => [regByte r]
  | .ldi r imm => [regByte r, imm]
  | .mul ra rb => [regByte ra, regByte rb]
  | .cmp ra rb => [regByte ra, regByte rb]

/-- The encoder: the opcode byte, then the operand bytes at increasing addresses (R45, R60). -/
def encode (i : Instr) : List Byte := opcodeByte i.op :: operandBytes i

/-- The first `n` bytes of the number `w`, least significant first: as opcode_table.json numbers an
instruction's bits, the byte at the lowest address is bits 7..0. -/
def bytesOfNat : Nat → Nat → List Byte
  | 0, _ => []
  | n + 1, w => BitVec.ofNat 8 w :: bytesOfNat n (w / 256)

/-- The bytes of a table word: `nbits` bits of `w`, zero above, up to the longest instruction. -/
def tableBytes (nbits w : Nat) : List Byte := bytesOfNat 3 (w % 2 ^ nbits)

/-- The instruction the decoder reads from a table word (the host asks this of table rows). -/
def decodeTableWord (nbits w : Nat) : Option Instr :=
  match decode (tableBytes nbits w) with
  | .ok i => some i
  | .error _ => none

end Sys2Proof
end

