-- ==== Sys2Proof/Config.lean ====
section
/-! DEFINITION. The implementation parameters of spec/00_scope.md R5 that are not a width and not the
opcode map (the map stands in Decode.lean, `Sys2Proof.opcodeByte`). -/

namespace Sys2Proof.Config

/-- `MEM_SIZE`: 256 byte cells, addresses 0 to 255 (R5, R40). -/
def memSize : Nat := 256

/-- `SP_INDEX`: register 7 is the stack pointer (R5, R20). -/
def spIndex : RegIndex := 7

/-- `SP_RESET`: 0xF4 (R5, R33). -/
def spReset : Byte := 0xF4

/-- The address of the first opcode fetched after reset (R47, R201). -/
def entryPoint : Nat := 0

/-- `STACK_WRAP_FAULTS`: false, the stack pointer wraps modulo 256 (R5, R136). The operations that
ask for it take it as an argument, so that both settings of R136 have a meaning; the machine's
instructions run with this one. -/
def stackWrapFaults : Bool := false

end Sys2Proof.Config
end

