-- ==== Sys2Proof/Machine/State.lean ====
section
/-! DEFINITION. The machine's state as plain data, exactly the tuple of spec/10_state.md R35, the fault
record of spec/60_exceptions.md R170, and the state after reset (R33, R200). -/

namespace Sys2Proof.Machine

/-- What the ALU can be asked for (41_alu.md R111). -/
inductive AluOp where
  /-- The sum; no instruction of this core asks for it. -/
  | add
  /-- The product, asked for by MUL. -/
  | mul
  /-- The comparison, asked for by CMP. -/
  | cmp
  /-- "Any other requested operation" (R111), under a number of the caller's. DESIGN CHOICE (log 13;
  safe): the spec names no such operation, and no instruction asks for one. -/
  | other (tag : Nat)
  deriving DecidableEq, Repr

/-- The four error kinds, each with the information recorded (60_exceptions.md R170). A fault is TAKEN:
the step answers a next state whose status is `Faulted` with this record (R171, `Sys2Proof.Machine.raise`),
so no step answers `Host.Outcome.fault` (log 1; safe). -/
inductive Fault where
  /-- Raised by an opcode fetch, an operand read or CALL's return address outside 0 to 255 (R172), and,
  only under `STACK_WRAP_FAULTS`, by a stack operation at the end of memory, address -1 or 256 (R136);
  hence an integer. Safe: the spec names it. -/
  | outOfBounds (address : Int)
  /-- Raised at decode by a register-index operand above 7 (R173). Safe: the spec names it. -/
  | invalidRegister (index : Byte)
  /-- Raised by the ALU for an operation it lacks (R174); no step raises it. Safe. -/
  | unsupportedOperation (op : AluOp)
  /-- Raised when the opcode byte is none of the twelve (R175). Safe: the spec names it. -/
  | unrecognizedOpcode (byte : Byte) (pc : Nat)
  deriving DecidableEq, Repr

/-- Why a step has no meaning. No arm of `exec` is refused: every instruction has its meaning. -/
inductive Refusal where
  /-- Raised by an arm of `exec` whose instruction is not modelled (none is). Safe. -/
  | notModelled (mnemonic : String)
  deriving DecidableEq, Repr

/-- The status (R29): running, ended by HLT, or ended by a fault. -/
inductive Status where
  | running
  | halted
  | faulted (f : Fault)
  deriving DecidableEq, Repr

/-- Memory: the cells that differ from what an unlisted address reads as, by rising address
(`Sys2Proof.Machine.Memory.wf`). -/
abbrev Memory := List Host.Cell

/-- The machine state (R35). -/
structure State where
  /-- The register file; `x[7]` is the stack pointer and has no storage of its own (R20). -/
  x : Vector Byte 8
  /-- The program counter: a natural number that does not wrap (R24). -/
  pc : Nat
  /-- The flags register: E bit 0, G bit 1, L bit 2, bits 7:3 reserved zero (R26). -/
  FL : Byte
  /-- The 256-byte memory (R32, R40). -/
  mem : Memory
  /-- Running, halted or faulted (R29). -/
  status : Status
  /-- The output stream, oldest value first (R30). -/
  out : List Byte
  deriving DecidableEq, Repr

/-- The state after construction or reset, before a program is loaded (R33, R200). -/
def State.reset : State where
  x := #v[0, 0, 0, 0, 0, 0, 0, Config.spReset]
  pc := Config.entryPoint
  FL := 0
  mem := []
  status := .running
  out := []

end Sys2Proof.Machine
end

