-- ==== Sys2Proof/Machine/Memory.lean ====
section
/-! DEFINITION. Memory as a list of cells in one canonical form: what a cell reads as, storing one byte,
storing an image (spec/20_memory.md R40, R41, R49). The bounds check of the memory port is in Ops.lean. -/

namespace Sys2Proof.Machine

/-- What an unlisted address reads as: 0x00 (R33 and R200, decision D6; log 7). -/
def Memory.unlisted : Byte := 0

/-- The byte at an address: the byte last written there, or its launch value (R41, R49). -/
def Memory.get : Memory → Nat → Byte
  | [], _ => Memory.unlisted
  | (b, w) :: m, a => if a = b then w else Memory.get m a

/-- The cells at other addresses than `a`. -/
def Memory.erase (m : Memory) (a : Nat) : Memory := m.filter (fun c => c.1 != a)

/-- Put a cell at its place in the rising order. -/
def Memory.insert : Memory → Nat → Byte → Memory
  | [], a, v => [(a, v)]
  | (b, w) :: m, a, v =>
    if a < b then (a, v) :: (b, w) :: m else (b, w) :: Memory.insert m a v

/-- Replace the byte at an address (R41). Writing what an unlisted address reads as removes the cell, so
that equal memories are equal lists. -/
def Memory.set (m : Memory) (a : Nat) (v : Byte) : Memory :=
  if v = Memory.unlisted then Memory.erase m a else Memory.insert (Memory.erase m a) a v

/-- Store `bytes` at increasing addresses from `a` (the Loader's image, R205). -/
def Memory.setBytes (m : Memory) (a : Nat) : List Byte → Memory
  | [] => m
  | v :: bytes => Memory.setBytes (Memory.set m a v) (a + 1) bytes

/-- The addresses rise strictly. -/
def Memory.rising : Memory → Bool
  | [] => true
  | c :: m => m.all (fun d => decide (c.1 < d.1)) && Memory.rising m

/-- The canonical form: addresses strictly rising, all of them addresses of the machine (R40), and no
cell equal to what an unlisted address reads as. -/
def Memory.wf (m : Memory) : Bool :=
  Memory.rising m && m.all (fun c => decide (c.1 < Config.memSize) && c.2 != Memory.unlisted)

end Sys2Proof.Machine
end

