-- ==== Sys2Proof/Machine/Ops.lean ====
section
/-! DEFINITION. The shared operations: the pseudocode primitives of spec/00_scope.md R8, the memory port
(spec/20_memory.md R42), the program-counter updates (spec/30_encoding.md R72), the stack
(spec/42_stack.md R136), and taking a fault (spec/60_exceptions.md R171). -/

namespace Sys2Proof.Machine

/-! ### Registers, flags, output, status (R8) -/

/-- `wrap8(v)`: a natural number reduced to a byte (R7). -/
def wrap8 (v : Nat) : Byte := BitVec.ofNat 8 v

/-- `x[r]` (R8). No register is hardwired (R21). -/
def State.reg (s : State) (r : RegIndex) : Byte := s.x[r]

/-- `x[r] <- v` (R8, R22). -/
def State.setReg (s : State) (r : RegIndex) (v : Byte) : State := { s with x := s.x.set r v }

/-- `SP`, another name for `x[7]` (R8, R20). -/
def State.sp (s : State) : Byte := s.reg Config.spIndex

/-- `SP <- v` (R8). -/
def State.setSp (s : State) (v : Byte) : State := s.setReg Config.spIndex v

/-- `pc <- target` (R8). -/
def State.setPc (s : State) (target : Nat) : State := { s with pc := target }

/-- `FL <- v`, the whole field (R8, R27). -/
def State.setFL (s : State) (v : Byte) : State := { s with FL := v }

/-- `emit(v)`: append to the output stream (R8, R30). -/
def State.emit (s : State) (v : Byte) : State := { s with out := s.out ++ [v] }

/-- Replace the status (R29). -/
def State.setStatus (s : State) (st : Status) : State := { s with status := st }

/-- Replace the memory. -/
def State.setMem (s : State) (m : Memory) : State := { s with mem := m }

/-! ### Taking a fault -/

/-- Taking a fault, `raise <Fault>(info)` (R8): status becomes Faulted(kind, info) and nothing else of the
state changes; no state is saved in a register, no mode changes, no handler is entered (R171, R176).
There is no return from it (R177): `Sys2Proof.Machine.step` of the result changes nothing, and only the host's
reset (`Sys2Proof.Machine.Command.reset`) runs the machine again. -/
def raise (f : Fault) (s : State) : Host.Outcome State Fault Refusal :=
  .next (s.setStatus (.faulted f))

/-- The end of a step that began in `s`: its next state, or, where a check raised a fault, `s` with the
fault taken, so that a faulting step commits nothing (R73, R171). -/
def settle (s : State) : Except Fault State → Host.Outcome State Fault Refusal
  | .ok t => .next t
  | .error f => raise f s

/-- The step of a stopped machine: it has none of its own (R9), and the host's step does nothing to it (R221);
the state is answered unchanged. DEDUCED (log 2; safe). -/
def stayStopped (s : State) : Host.Outcome State Fault Refusal := .next s

/-! ### The memory port (R41, R42) -/

/-- `MemRead(a, 1)`. -/
def memRead (a : Nat) (s : State) : Except Fault Byte :=
  if a < Config.memSize then .ok (s.mem.get a) else .error (.outOfBounds a)

/-- `MemWrite(a, 1, v)`. -/
def memWrite (a : Nat) (v : Byte) (s : State) : Except Fault State :=
  if a < Config.memSize then .ok (s.setMem (s.mem.set a v)) else .error (.outOfBounds a)

/-! ### Program counter (R72) -/

/-- The generic increment step of R74: past the operand bytes of `o`, plus the universal increment. -/
def State.advance (s : State) (o : Op) : State := s.setPc (s.pc + 1 + operandCount o)

/-- A control transfer: pc is the target and there is no increment (R72, R152). -/
def State.jumpTo (s : State) (target : Byte) : State := s.setPc target.toNat

/-- The return address CALL stores, `pc + 2`; where it is no address, OutOfBounds (R140, D4). -/
def returnAddress (s : State) : Except Fault Byte :=
  if s.pc + 1 + operandCount .call < Config.memSize then .ok (wrap8 (s.pc + 1 + operandCount .call))
  else .error (.outOfBounds ↑(s.pc + 1 + operandCount .call))

/-! ### The stack (R136)

`wrapFaults` is the parameter `STACK_WRAP_FAULTS`. -/

/-- The check `STACK_WRAP_FAULTS` adds to PUSH and CALL, before any write (R136). -/
def pushGuard (wrapFaults : Bool) (s : State) : Except Fault Unit :=
  if wrapFaults && s.sp == 0 then .error (.outOfBounds (-1)) else .ok ()

/-- The check `STACK_WRAP_FAULTS` adds to POP and RET, before any write (R136). -/
def popGuard (wrapFaults : Bool) (s : State) : Except Fault Unit :=
  if wrapFaults && s.sp == 255 then .error (.outOfBounds 256) else .ok ()

/-- `x[7] <- x[7] - 1`, modulo 256 (R130, R140). -/
def growStack (wrapFaults : Bool) (s : State) : Except Fault State := do
  pushGuard wrapFaults s
  return s.setSp (s.sp - 1)

/-- `MemWrite(x[7], 1, v)` (R130, R140). -/
def storeTop (v : Byte) (s : State) : Except Fault State := memWrite s.sp.toNat v s

/-- `MemRead(x[7], 1)`, before the increment (R132, R142). -/
def loadTop (wrapFaults : Bool) (s : State) : Except Fault Byte := do
  popGuard wrapFaults s
  memRead s.sp.toNat s

/-- `x[7] <- x[7] + 1`, modulo 256; x[7] is read here, after any write before it (R132, R142). -/
def State.shrinkStack (s : State) : State := s.setSp (s.sp + 1)

end Sys2Proof.Machine
end

