-- ==== Sys2Proof/Machine/Flags.lean ====
section
/-! DEFINITION. The flags register's fields and CMP's flag value (spec/10_state.md R26, R27;
spec/41_alu.md R115). -/

namespace Sys2Proof.Machine

/-- Equal, bit 0 of FL. -/
def flagMaskE : Byte := 0x01

/-- Greater-than, bit 1 of FL. -/
def flagMaskG : Byte := 0x02

/-- Less-than, bit 2 of FL. -/
def flagMaskL : Byte := 0x04

/-- `test(mask)` of R27: some bit of the mask is set. -/
def flagTest (mask fl : Byte) : Bool := fl &&& mask != 0

/-- The E bit, the one bit an instruction reads (R27). -/
def State.flagE (s : State) : Bool := flagTest flagMaskE s.FL

/-- The G bit. -/
def State.flagG (s : State) : Bool := flagTest flagMaskG s.FL

/-- The L bit. -/
def State.flagL (s : State) : Bool := flagTest flagMaskL s.FL

/-- CMP's flag value for operands `va` and `vb`, compared as unsigned numbers (R115, D17). -/
def compareFlags (va vb : Byte) : Byte :=
  if va.toNat = vb.toNat then flagMaskE
  else if va.toNat > vb.toNat then flagMaskG
  else flagMaskL

end Sys2Proof.Machine
end

