-- ==== Sys2Proof/Machine/Operands.lean ====
section
/-! DEFINITION. The two operand forms of the machine and the one use of a register as a target
(spec/30_encoding.md R65, R66). -/

namespace Sys2Proof.Machine

/-- A register-index operand used as a value: the register's contents, in the state the pseudocode reads
it in (R65). -/
def registerOperand (r : RegIndex) (s : State) : Byte := s.reg r

/-- An immediate operand: its value as is; no extension, no scaling, no shift (R65). -/
def immediateOperand (imm : Byte) : Byte := imm

/-- A register-index operand used as a jump or call target: the register's value is the address (R66, R152). -/
def targetOperand (r : RegIndex) (s : State) : Byte := s.reg r

end Sys2Proof.Machine
end

