-- ==== Sys2Proof/Machine/Alu.lean ====
section
/-! DEFINITION. The ALU and its instructions MUL and CMP (spec/41_alu.md). -/

namespace Sys2Proof.Machine

/-- `apply(operation, value_a, value_b) -> value`: stateless, exact on natural numbers, then reduced
modulo 256 (R110, R111, R116). -/
def aluApply (op : AluOp) (a b : Byte) : Except Fault Byte :=
  match op with
  | .add => .ok (wrap8 (a.toNat + b.toNat))
  | .mul => .ok (wrap8 (a.toNat * b.toNat))
  | .cmp => .ok (compareFlags a b)
  | .other tag => .error (.unsupportedOperation (.other tag))

/-- MUL ra, rb (R112): `x[ra] <- ALU(MUL, x[ra], x[rb])`; FL keeps its value. -/
def execMul (ra rb : RegIndex) (s : State) : Host.Outcome State Fault Refusal :=
  settle s do
    let v ← aluApply .mul (registerOperand ra s) (registerOperand rb s)
    return (s.setReg ra v).advance .mul

/-- CMP ra, rb (R114): `FL <- ALU(CMP, x[ra], x[rb])`, the whole field. -/
def execCmp (ra rb : RegIndex) (s : State) : Host.Outcome State Fault Refusal :=
  settle s do
    let v ← aluApply .cmp (registerOperand ra s) (registerOperand rb s)
    return (s.setFL v).advance .cmp

end Sys2Proof.Machine
end

