-- ==== Sys2Proof/Machine/Control.lean ====
section
/-! DEFINITION. CALL, RET, JMP, JEQ and JNE (spec/43_control_transfer.md). The effects of CALL and RET take the
parameter `STACK_WRAP_FAULTS` (spec/42_stack.md R136), as PUSH and POP do. -/

namespace Sys2Proof.Machine

/-- CALL r (R140): the return address is checked before anything is written, pushed as PUSH does, and
the target `x[r]` is read after the decrement. Where both this check and the one of `STACK_WRAP_FAULTS`
fail, the return address's comes first: DESIGN CHOICE (log 15; safe, the machine's setting is false). -/
def callEffect (wrapFaults : Bool) (r : RegIndex) (s : State) : Except Fault State := do
  let ret ← returnAddress s
  let t ← growStack wrapFaults s
  let u ← storeTop ret t
  return u.jumpTo (targetOperand r u)

/-- RET (R142): pc is the byte at the stack pointer, which is then incremented. -/
def retEffect (wrapFaults : Bool) (s : State) : Except Fault State := do
  let v ← loadTop wrapFaults s
  return (s.jumpTo v).shrinkStack

/-- CALL r. -/
def execCall (r : RegIndex) (s : State) : Host.Outcome State Fault Refusal :=
  settle s (callEffect Config.stackWrapFaults r s)

/-- RET. -/
def execRet (s : State) : Host.Outcome State Fault Refusal :=
  settle s (retEffect Config.stackWrapFaults s)

/-- JMP r (R144). -/
def execJmp (r : RegIndex) (s : State) : Host.Outcome State Fault Refusal :=
  .next (s.jumpTo (targetOperand r s))

/-- JEQ r (R146): taken when E is set; G and L are not read. -/
def execJeq (r : RegIndex) (s : State) : Host.Outcome State Fault Refusal :=
  .next (if s.flagE then s.jumpTo (targetOperand r s) else s.advance .jeq)

/-- JNE r (R148): taken when E is clear. -/
def execJne (r : RegIndex) (s : State) : Host.Outcome State Fault Refusal :=
  .next (if s.flagE then s.advance .jne else s.jumpTo (targetOperand r s))

end Sys2Proof.Machine
end

