-- ==== Sys2Proof/Machine/RegisterIo.lean ====
section
/-! DEFINITION. LDI and PRN (spec/40_register_io.md). -/

namespace Sys2Proof.Machine

/-- LDI r, imm (R100): `x[r] <- imm`. -/
def execLdi (r : RegIndex) (imm : Byte) (s : State) : Host.Outcome State Fault Refusal :=
  .next ((s.setReg r (immediateOperand imm)).advance .ldi)

/-- PRN r (R102): append `x[r]` to the output stream. -/
def execPrn (r : RegIndex) (s : State) : Host.Outcome State Fault Refusal :=
  .next ((s.emit (registerOperand r s)).advance .prn)

end Sys2Proof.Machine
end

