-- ==== Sys2Proof/Machine/Stack.lean ====
section
/-! DEFINITION. PUSH and POP (spec/42_stack.md). The effect of each takes the parameter `STACK_WRAP_FAULTS`
(R136), and the instruction is that effect at the machine's setting. -/

namespace Sys2Proof.Machine

/-- PUSH r (R130): the stack pointer is decremented, then `x[r]`, read after the decrement, is stored where
it points. -/
def pushEffect (wrapFaults : Bool) (r : RegIndex) (s : State) : Except Fault State := do
  let t ← growStack wrapFaults s
  let u ← storeTop (registerOperand r t) t
  return u.advance .push

/-- POP r (R132): the byte at the stack pointer is loaded into `x[r]`, then the stack pointer, read after
that write, is incremented. -/
def popEffect (wrapFaults : Bool) (r : RegIndex) (s : State) : Except Fault State := do
  let v ← loadTop wrapFaults s
  return (s.setReg r v).shrinkStack.advance .pop

/-- PUSH r. -/
def execPush (r : RegIndex) (s : State) : Host.Outcome State Fault Refusal :=
  settle s (pushEffect Config.stackWrapFaults r s)

/-- POP r. -/
def execPop (r : RegIndex) (s : State) : Host.Outcome State Fault Refusal :=
  settle s (popEffect Config.stackWrapFaults r s)

end Sys2Proof.Machine
end

