-- ==== Sys2Proof/Machine/System.lean ====
section
/-! DEFINITION. HLT, the one system instruction (spec/44_machine_control.md, spec/60_exceptions.md R184). -/

namespace Sys2Proof.Machine

/-- HLT (R160): the universal increment, then status Halted. -/
def execHlt (s : State) : Host.Outcome State Fault Refusal :=
  .next ((s.advance .hlt).setStatus .halted)

end Sys2Proof.Machine
end

