-- ==== Sys2Proof/Machine/Fetch.lean ====
section
/-! DEFINITION. Fetching the instruction at the program counter, and placing one there
(spec/30_encoding.md R70, R71). -/

namespace Sys2Proof.Machine

/-- The bytes at `a`, `a + 1`, … that have an address, at most `n` of them. -/
def fetchWindow : Nat → Nat → State → List Byte
  | 0, _, _ => []
  | n + 1, a, s =>
    match memRead a s with
    | .ok b => b :: fetchWindow n (a + 1) s
    | .error _ => []

/-- The fault a decoding failure at address `pc` raises (R70, R71, R175): a byte the instruction needs and
memory lacks is OutOfBounds at that byte's address. -/
def decodeFault (pc : Nat) : DecodeError → Fault
  | .missingByte k => .outOfBounds ↑(pc + k)
  | .unrecognizedOpcode b => .unrecognizedOpcode b pc
  | .invalidRegister v => .invalidRegister v

/-- Fetch and decode at pc. The window holds three bytes, the longest instruction; the decoder looks only
at those the opcode needs, and a memory read changes nothing (R44), so that the bytes it does not need
are not seen to have been read. DEDUCED (log 9; safe). -/
def fetchDecode (s : State) : Except Fault Instr :=
  match decode (fetchWindow 3 s.pc s) with
  | .ok i => .ok i
  | .error e => .error (decodeFault s.pc e)

/-- Store those of `bytes` that fall inside memory at increasing addresses from `a`. -/
def storeInRange (a : Nat) : List Byte → State → State
  | [], s => s
  | v :: bytes, s =>
    match memWrite a v s with
    | .ok t => storeInRange (a + 1) bytes t
    | .error _ => s

/-- A machine ready to fetch the bytes of a table word: they stand at pc, and the machine is running. -/
def placeAtPc (bytes : List Byte) (s : State) : State :=
  (storeInRange s.pc bytes s).setStatus .running

end Sys2Proof.Machine
end

