-- ==== Sys2Proof/Machine/Step.lean ====
section
/-! DEFINITION. One step of the machine (spec/30_encoding.md R73, spec/70_reset_and_hazards.md R221). -/

namespace Sys2Proof.Machine

/-- One step of a running machine: fetch, decode, execute, or take the fetch's fault (R73). A stopped machine
stays as it is (`stayStopped`). -/
def step (s : State) : Host.Outcome State Fault Refusal :=
  match s.status with
  | .running =>
    match fetchDecode s with
    | .ok i => exec i s
    | .error f => raise f s
  | .halted => stayStopped s
  | .faulted _ => stayStopped s

/-- `s` with the bytes of a table word at its program counter, so that the next step fetches and runs that
instruction. This stands for the Loader, which places a program from outside the machine (R205; log 10). -/
def State.withFetchWord (s : State) (nbits w : Nat) : State := placeAtPc (tableBytes nbits w) s

end Sys2Proof.Machine
end

