-- ==== Sys2Proof/Machine/HostControl.lean ====
section
/-! DEFINITION. The host's side of the interfaces (spec/70_reset_and_hazards.md R200, R205, R220 to R225;
spec/60_exceptions.md R170, R186): control, status port, output rendering, trace. None of it is part
of a step. -/

namespace Sys2Proof.Machine

/-! ### Status and output ports -/

/-- The code of a fault kind (R170, D19). -/
def Fault.code : Fault → Nat
  | .outOfBounds _ => 1
  | .invalidRegister _ => 2
  | .unsupportedOperation _ => 3
  | .unrecognizedOpcode _ _ => 4

/-- The engine's `running` boolean (R29). -/
def State.isRunning (s : State) : Bool :=
  match s.status with
  | .running => true
  | .halted => false
  | .faulted _ => false

/-- The characters the host prints for one output value: its decimal digits and a line end (R223, D9). -/
def renderValue (v : Byte) : String := Nat.repr v.toNat ++ "\n"

/-- What the optional trace operation shows (R186): pc, the next three memory bytes (none past address
255), the eight registers. -/
structure Trace where
  pc : Nat
  bytes : List Byte
  regs : Vector Byte 8
  deriving DecidableEq, Repr

/-- The trace reads the state and changes nothing (R186, D21). Its hexadecimal text is not modelled (log 16). -/
def State.trace (s : State) : Trace := { pc := s.pc, bytes := fetchWindow 3 s.pc s, regs := s.x }

/-! ### Host control -/

/-- Load an image at address 0 (R205). An image of more than 256 bytes is refused by the host (D25). -/
def State.load (bytes : List Byte) (s : State) : Option State :=
  if bytes.length ≤ Config.memSize then some (s.setMem (s.mem.setBytes 0 bytes)) else none

/-- The host's `step` (R221): the state the step answers. `step` answers a next state always; the other
two outcomes are matched for totality. -/
def hostStep (s : State) : State :=
  match step s with
  | .next t => t
  | .fault _ => s
  | .refused _ => s

/-- `run(bound)` (R222): steps until the status is not Running or `bound` steps have been taken. -/
def runBounded : Nat → State → State
  | 0, s => s
  | bound + 1, s => if s.isRunning then runBounded bound (hostStep s) else s

/-- The host's transactions (R220, R225). -/
inductive Command where
  | reset
  | load (bytes : List Byte)
  | step
  | run (bound : Nat)
  deriving DecidableEq, Repr

/-- A machine and the host's own note of whether a step has been asked for since the last reset, on which
the permission to load hangs (R225). DESIGN CHOICE (log 14; safe): the note is the host's, not the machine's. -/
structure Session where
  machine : State
  started : Bool
  deriving DecidableEq, Repr

/-- A machine just constructed (R200). -/
def Session.fresh : Session := { machine := State.reset, started := false }

/-- One transaction; none where the host may not make it (R225, D25). -/
def Session.apply (c : Command) (h : Session) : Option Session :=
  match c with
  | .reset => some Session.fresh
  | .load bytes =>
    if h.started then none
    else (h.machine.load bytes).map fun m => { machine := m, started := false }
  | .step => some { machine := hostStep h.machine, started := true }
  | .run bound =>
    some { machine := runBounded bound h.machine, started := h.started || bound != 0 }

end Sys2Proof.Machine
end

