-- ==== Sys2Proof/WellFormed.lean ====
section
/-! DEFINITION. When an instruction is well formed AT AN ADDRESS. That a register operand is 0 to 7 is
in its type (`RegIndex`), so what is left to check of an instruction is its place in memory: each of
its bytes has an address (spec/30_encoding.md R71, spec/20_memory.md R42), and CALL's return address
is one too (spec/43_control_transfer.md R140). -/

namespace Sys2Proof

/-- The instruction's length in bytes: 1, 2 or 3 (R60). -/
def Instr.length : Instr → Nat
  | .hlt => 1
  | .ret => 1
  | .push _ => 2
  | .pop _ => 2
  | .prn _ => 2
  | .call _ => 2
  | .jmp _ => 2
  | .jeq _ => 2
  | .jne _ => 2
  | .ldi _ _ => 3
  | .mul _ _ => 3
  | .cmp _ _ => 3

/-- CHECK 1: every byte of the instruction, its first at `pc`, has an address 0 to 255 (R42, R71). -/
def Instr.bytesFit (pc : Nat) (i : Instr) : Bool :=
  pc + i.length ≤ Config.memSize

/-- CHECK 2: the return address a CALL stores is an address (R140); no other instruction stores one. -/
def Instr.returnFits (pc : Nat) : Instr → Bool
  | .call _ => pc + 2 < Config.memSize
  | .hlt => true
  | .ret => true
  | .push _ => true
  | .pop _ => true
  | .prn _ => true
  | .jmp _ => true
  | .jeq _ => true
  | .jne _ => true
  | .ldi _ _ => true
  | .mul _ _ => true
  | .cmp _ _ => true

/-- `i` is well formed at address `pc`: it can stand there and complete. -/
def Instr.wellFormedAt (pc : Nat) (i : Instr) : Bool :=
  i.bytesFit pc && i.returnFits pc

end Sys2Proof
end

