-- ==== Sys2Proof/Safety.lean ====
section
/-! DEFINITION. What claims are stated in: the invariant of the machine, reachable states, frames, how a
step faults, and the fault priority of spec/60_exceptions.md R179 written out on memory bytes. -/

namespace Sys2Proof.Machine

/-! ### The invariant -/

/-- The values FL can hold (R28); in each of them bits 7:3 are zero (R26). -/
def legalFlags (fl : Byte) : Prop := fl = 0x00 ∨ fl = 0x01 ∨ fl = 0x02 ∨ fl = 0x04

/-- The fault records a stopped machine at `pc` can show (R172, R173, R174, R175). -/
def Fault.legalAt (pc : Nat) : Fault → Prop
  | .outOfBounds a => a = 256
  | .invalidRegister v => 7 < v.toNat
  | .unsupportedOperation _ => False
  | .unrecognizedOpcode b p => p = pc ∧ opOf? b = none

/-- The invariant of the machine: memory in canonical form, FL one of its four values (R28), pc no more than
256 (R25, in stopped states too), and no fault record but the spec's. -/
structure State.Inv (s : State) : Prop where
  mem_wf : s.mem.wf = true
  flags_legal : legalFlags s.FL
  pc_le : s.pc ≤ 256
  fault_legal : ∀ f, s.status = .faulted f → f.legalAt s.pc

/-- The states a loaded machine can come to by steps (R205, R221). -/
inductive Reachable : State → Prop where
  | loaded (bytes : List Byte) (s : State) : State.reset.load bytes = some s → Reachable s
  | step (s t : State) : Reachable s → Machine.step s = .next t → Reachable t

/-! ### How a step ends -/

/-- The step of `s` takes the fault `f`: the machine stops as Faulted at the instruction's own address, with
nothing emitted (R171). Registers, FL and memory of the stopped state are left unsaid, since no claim may
read them (R171, D8). -/
def FaultsWith (s : State) (f : Fault) : Prop :=
  ∃ t, step s = .next t ∧ t.status = .faulted f ∧ t.pc = s.pc ∧ t.out = s.out

/-- The step of `s` completes: it runs on, or halts. -/
def Completes (s : State) : Prop :=
  ∃ t, step s = .next t ∧ (t.status = .running ∨ t.status = .halted)

/-- The bytes at the program counter are `bytes`. -/
def BytesAtPc (s : State) (bytes : List Byte) : Prop :=
  ∀ (k : Nat) (h : k < bytes.length), memRead (s.pc + k) s = .ok bytes[k]

/-! ### Frames -/

/-- Every address reads in `t` as in `s`. -/
def SameMemory (s t : State) : Prop := ∀ a : Nat, memRead a t = memRead a s

/-- Every address but `a` reads in `t` as in `s`. -/
def SameMemoryBut (a : Nat) (s t : State) : Prop := ∀ b : Nat, b ≠ a → memRead b t = memRead b s

/-- Every register not in `rs` holds in `t` what it holds in `s`. -/
def SameRegsBut (rs : List RegIndex) (s t : State) : Prop := ∀ q, q ∉ rs → t.reg q = s.reg q

/-! ### Fetch and operand checks, on memory bytes -/

/-- A fetch past the end of memory raises OutOfBounds (R70). -/
def FetchPastEndFaults : Prop :=
  ∀ s : State, s.status = .running → 255 < s.pc → FaultsWith s (.outOfBounds s.pc)

/-- The instruction `op a` of one register operand: its exceptions, and what runs where there is none. -/
def ChecksOneRegister (op : Byte) (mk : RegIndex → Instr) : Prop :=
  ∀ s : State, s.status = .running → memRead s.pc s = .ok op →
    (s.pc = 255 → FaultsWith s (.outOfBounds 256)) ∧
    ∀ a, memRead (s.pc + 1) s = .ok a →
      (7 < a.toNat → FaultsWith s (.invalidRegister a)) ∧
      ∀ r : RegIndex, a.toNat = r.val → step s = exec (mk r) s

/-- The instruction `op a b` of two register operands. -/
def ChecksTwoRegisters (op : Byte) (mk : RegIndex → RegIndex → Instr) : Prop :=
  ∀ s : State, s.status = .running → memRead s.pc s = .ok op →
    (s.pc = 255 → FaultsWith s (.outOfBounds 256)) ∧
    (s.pc = 254 → FaultsWith s (.outOfBounds 256)) ∧
    ∀ a b, memRead (s.pc + 1) s = .ok a → memRead (s.pc + 2) s = .ok b →
      (7 < a.toNat → FaultsWith s (.invalidRegister a)) ∧
      (a.toNat ≤ 7 → 7 < b.toNat → FaultsWith s (.invalidRegister b)) ∧
      ∀ ra rb : RegIndex, a.toNat = ra.val → b.toNat = rb.val → step s = exec (mk ra rb) s

/-- The instruction `op a b` of a register operand and an immediate. -/
def ChecksRegisterAndImmediate (op : Byte) (mk : RegIndex → Byte → Instr) : Prop :=
  ∀ s : State, s.status = .running → memRead s.pc s = .ok op →
    (s.pc = 255 → FaultsWith s (.outOfBounds 256)) ∧
    (s.pc = 254 → FaultsWith s (.outOfBounds 256)) ∧
    ∀ a b, memRead (s.pc + 1) s = .ok a → memRead (s.pc + 2) s = .ok b →
      (7 < a.toNat → FaultsWith s (.invalidRegister a)) ∧
      ∀ r : RegIndex, a.toNat = r.val → step s = exec (mk r b) s

/-- The twelve opcode bytes, as R64 lists them. -/
def opcodeBytes : List Byte :=
  [0x01, 0x11, 0x45, 0x46, 0x47, 0x50, 0x54, 0x55, 0x56, 0x82, 0xA2, 0xA7]

/-- Those with a first operand byte, which is a register index in each (R74). -/
def bytesWithFirst : List Byte := [0x45, 0x46, 0x47, 0x50, 0x54, 0x55, 0x56, 0x82, 0xA2, 0xA7]

/-- Those with a second operand byte (R74). -/
def bytesWithSecond : List Byte := [0x82, 0xA2, 0xA7]

/-- Those whose second operand byte is a register index (R74). -/
def bytesWithSecondRegister : List Byte := [0xA2, 0xA7]

/-- The first fault that applies to a running machine, in the order of R179. -/
def firstFault (s : State) : Option Fault :=
  let op := s.mem.get s.pc
  let a := s.mem.get (s.pc + 1)
  let b := s.mem.get (s.pc + 2)
  if 255 < s.pc then some (.outOfBounds s.pc)
  else if op ∉ opcodeBytes then some (.unrecognizedOpcode op s.pc)
  else if op ∈ bytesWithFirst ∧ 255 < s.pc + 1 then some (.outOfBounds ↑(s.pc + 1))
  else if op ∈ bytesWithSecond ∧ 255 < s.pc + 2 then some (.outOfBounds ↑(s.pc + 2))
  else if op ∈ bytesWithFirst ∧ 7 < a.toNat then some (.invalidRegister a)
  else if op ∈ bytesWithSecondRegister ∧ 7 < b.toNat then some (.invalidRegister b)
  else if op = 0x50 ∧ 255 < s.pc + 2 then some (.outOfBounds ↑(s.pc + 2))
  else none

end Sys2Proof.Machine
end

