-- ==== Sys2Proof/Certificates/Slice0/Obligations.lean ====
section
/-! DEFINITION. The statements for the provers. Each docstring names the rule of spec/ it formalises. None of
them reads a register, FL or a memory byte of a state whose step took a fault, as R171 asks of a claim,
but for the unrecognized opcode, where R162 gives them. -/

open Sys2Proof Sys2Proof.Machine

/-! ### Encoding and decoding -/

/-- R64 and R74: every operation with its opcode byte, its AA field, its operand kinds and its
control-transfer mark. -/
def Obligations.OpcodeTableIsAsSpecified : Prop :=
  Op.all.map (fun o => (o, opcodeByte o, aaField (opcodeByte o), operandKinds o, transferMark o)) =
    [(.hlt, 0x01, 0, [], .never),
     (.ret, 0x11, 0, [], .always),
     (.push, 0x45, 1, [.register], .never),
     (.pop, 0x46, 1, [.register], .never),
     (.prn, 0x47, 1, [.register], .never),
     (.call, 0x50, 1, [.register], .always),
     (.jmp, 0x54, 1, [.register], .always),
     (.jeq, 0x55, 1, [.register], .whenEqual),
     (.jne, 0x56, 1, [.register], .whenNotEqual),
     (.ldi, 0x82, 2, [.register, .immediate], .never),
     (.mul, 0xA2, 2, [.register, .register], .never),
     (.cmp, 0xA7, 2, [.register, .register], .never)]

/-- Words written out from the encodings of 40_register_io.md to 44_machine_control.md decode to the
instructions they stand for, and the byte of LS-8's ADD decodes to none (R69). -/
def Obligations.SampleWordsDecode : Prop :=
  decode [0x82, 0x00, 0x08] = .ok (.ldi 0 8) ∧
  decode [0x47, 0x07] = .ok (.prn 7) ∧
  decode [0xA2, 0x02, 0x05] = .ok (.mul 2 5) ∧
  decode [0xA7, 0x06, 0x01] = .ok (.cmp 6 1) ∧
  decode [0x45, 0x03] = .ok (.push 3) ∧
  decode [0x50, 0x01] = .ok (.call 1) ∧
  decode [0x56, 0x04] = .ok (.jne 4) ∧
  decode [0x01] = .ok .hlt ∧
  decode [0x45, 0x08] = .error (.invalidRegister 8) ∧
  decode [0xA0, 0x00, 0x00] = .error (.unrecognizedOpcode 0xA0)

/-- The decoder answers an instruction exactly on that instruction's encoding, whatever bytes follow it: no
bit of an encoding is dropped, and no word has two readings (R60, R63, R65, R71). -/
def Obligations.DecodeAnswersExactlyTheEncodings : Prop :=
  ∀ (bytes : List Byte) (i : Instr), decode bytes = .ok i ↔ ∃ rest, bytes = encode i ++ rest

/-! ### One step -/

/-- When the bytes at pc are an instruction's encoding, a step of a running machine is that instruction's
meaning at the same state; the step adds nothing around it (R71, R73). -/
def Obligations.StepRunsTheInstructionAtPc : Prop :=
  ∀ (s : State) (i : Instr), s.status = .running → BytesAtPc s (encode i) → step s = exec i s

/-- From a running state exactly one of three outcomes, Halted only by HLT; a stopped state is answered
unchanged, which is the model's reading of "there is no step" (log 2). No step is refused
(00_scope.md section 4). -/
def Obligations.StepHasOneOfThreeOutcomes : Prop :=
  ∀ s : State,
    (s.status = .running →
      ∃ t, step s = .next t ∧
        (t.status = .running ∨ t.status = .halted ∨ ∃ f, t.status = .faulted f) ∧
        (t.status = .halted → memRead s.pc s = .ok 0x01)) ∧
    (s.status ≠ .running → step s = .next s)

/-- R179: one step raises the first fault that applies, in the order of the rule, written out on the bytes of
memory (`Sys2Proof.Machine.firstFault`); where none applies, it completes. -/
def Obligations.FirstApplicableFaultIsRaised : Prop :=
  ∀ s : State, s.status = .running →
    (∀ f, firstFault s = some f → FaultsWith s f) ∧ (firstFault s = none → Completes s)

/-- A running machine's step completes exactly when a well-formed instruction stands at pc: each of its bytes
has an address, and CALL's return address is one (R71, R140, R179). -/
def Obligations.StepCompletesExactlyOnWellFormedInstructions : Prop :=
  ∀ s : State, s.status = .running →
    (Completes s ↔ ∃ i : Instr, BytesAtPc s (encode i) ∧ i.wellFormedAt s.pc = true)

/-- R72, the table of next program counters; a step that raises a fault leaves pc unchanged. -/
def Obligations.NextPcIsAsTabled : Prop :=
  (∀ (s t : State) (f : Fault), s.status = .running → step s = .next t → t.status = .faulted f →
    t.pc = s.pc) ∧
  ∀ (i : Instr) (s : State), s.status = .running →
    ∃ t, exec i s = .next t ∧
      ((∃ f, t.status = .faulted f) → t.pc = s.pc) ∧
      ((∀ f, t.status ≠ .faulted f) →
        match i with
        | .hlt => t.pc = s.pc + 1 ∧ t.status = .halted
        | .ret => memRead (s.reg 7).toNat s = .ok (BitVec.ofNat 8 t.pc) ∧ t.pc < 256
        | .push _ => t.pc = s.pc + 2
        | .pop _ => t.pc = s.pc + 2
        | .prn _ => t.pc = s.pc + 2
        | .call r => t.pc = (if r = 7 then s.reg 7 - 1 else s.reg r).toNat
        | .jmp r => t.pc = (s.reg r).toNat
        | .jeq r => t.pc = if s.FL.getLsbD 0 then (s.reg r).toNat else s.pc + 2
        | .jne r => t.pc = if s.FL.getLsbD 0 then s.pc + 2 else (s.reg r).toNat
        | .ldi _ _ => t.pc = s.pc + 3
        | .mul _ _ => t.pc = s.pc + 3
        | .cmp _ _ => t.pc = s.pc + 3)

/-- The generic increment step of the dispatcher's table: an instruction not marked as a control transfer, and
JEQ or JNE where its mark says it is not taken, ends past its operand bytes plus one
(30_encoding.md section 5). -/
def Obligations.UntakenInstructionsAdvanceByTheirOperandCount : Prop :=
  ∀ (i : Instr) (s : State),
    (transferMark i.op = .never ∨
      (transferMark i.op = .whenEqual ∧ s.flagE = false) ∨
      (transferMark i.op = .whenNotEqual ∧ s.flagE = true)) →
    ∃ t, exec i s = .next t ∧ t.pc = s.pc + 1 + operandCount i.op

/-! ### Register load and output -/

/-- R100: LDI. -/
def Obligations.LdiFollowsItsRule : Prop :=
  (∀ (r : RegIndex) (imm : Byte) (s : State),
    ∃ t, exec (.ldi r imm) s = .next t ∧ t.reg r = imm ∧ SameRegsBut [r] s t ∧ t.pc = s.pc + 3 ∧
      t.FL = s.FL ∧ t.out = s.out ∧ t.status = s.status ∧ SameMemory s t) ∧
  ChecksRegisterAndImmediate 0x82 .ldi ∧
  FetchPastEndFaults

/-- R102: PRN. -/
def Obligations.PrnFollowsItsRule : Prop :=
  (∀ (r : RegIndex) (s : State),
    ∃ t, exec (.prn r) s = .next t ∧ t.out = s.out ++ [s.reg r] ∧ SameRegsBut [] s t ∧
      t.pc = s.pc + 2 ∧ t.FL = s.FL ∧ t.status = s.status ∧ SameMemory s t) ∧
  ChecksOneRegister 0x47 .prn

/-- R104: LDI Rr, v followed at once by PRN Rr appends exactly v, for every register, R7 among them. -/
def Obligations.LdiThenPrnAppendsTheImmediate : Prop :=
  ∀ (r : RegIndex) (v : Byte) (s : State), s.status = .running →
    BytesAtPc s [0x82, BitVec.ofNat 8 r.val, v, 0x47, BitVec.ofNat 8 r.val] →
    ∃ t u, step s = .next t ∧ step t = .next u ∧ u.out = s.out ++ [v]

/-! ### ALU and arithmetic -/

/-- R111 and R116: the ALU's operations, modulo 256, any other failing with UnsupportedOperation; the
multiplication laws. -/
def Obligations.AluComputesItsTable : Prop :=
  (∀ a b : Byte,
    aluApply .add a b = .ok (BitVec.ofNat 8 ((a.toNat + b.toNat) % 256)) ∧
    aluApply .mul a b = .ok (BitVec.ofNat 8 ((a.toNat * b.toNat) % 256)) ∧
    aluApply .cmp a b =
      .ok (if a.toNat = b.toNat then 0x01 else if a.toNat > b.toNat then 0x02 else 0x04)) ∧
  (∀ (tag : Nat) (a b : Byte),
    aluApply (.other tag) a b = .error (.unsupportedOperation (.other tag))) ∧
  (∀ v : Byte, aluApply .mul 0 v = .ok 0 ∧ aluApply .mul 1 v = .ok v) ∧
  aluApply .mul 16 16 = .ok 0 ∧ aluApply .mul 255 255 = .ok 1

/-- R112: MUL. FL keeps its value. -/
def Obligations.MulFollowsItsRule : Prop :=
  (∀ (ra rb : RegIndex) (s : State),
    ∃ t, exec (.mul ra rb) s = .next t ∧
      (t.reg ra).toNat = (s.reg ra).toNat * (s.reg rb).toNat % 256 ∧ SameRegsBut [ra] s t ∧
      t.pc = s.pc + 3 ∧ t.FL = s.FL ∧ t.out = s.out ∧ t.status = s.status ∧ SameMemory s t) ∧
  ChecksTwoRegisters 0xA2 .mul

/-- R114 and R115: CMP writes the whole of FL, exactly one bit of it set, whatever FL was; nothing else. -/
def Obligations.CmpFollowsItsRule : Prop :=
  (∀ (ra rb : RegIndex) (s : State),
    ∃ t, exec (.cmp ra rb) s = .next t ∧
      ((s.reg ra).toNat = (s.reg rb).toNat →
        t.FL = 0x01 ∧ t.flagE = true ∧ t.flagG = false ∧ t.flagL = false) ∧
      ((s.reg ra).toNat > (s.reg rb).toNat →
        t.FL = 0x02 ∧ t.flagE = false ∧ t.flagG = true ∧ t.flagL = false) ∧
      ((s.reg ra).toNat < (s.reg rb).toNat →
        t.FL = 0x04 ∧ t.flagE = false ∧ t.flagG = false ∧ t.flagL = true) ∧
      SameRegsBut [] s t ∧ t.pc = s.pc + 3 ∧ t.out = s.out ∧ t.status = s.status ∧
      SameMemory s t) ∧
  ChecksTwoRegisters 0xA7 .cmp

/-- R27: FL is written only by CMP, which overwrites all of it, and read only by JEQ and JNE, which read E
alone; its reset value is 0x00. Said of instructions that take no fault. -/
def Obligations.FlagsAreWrittenByCmpAndReadByJumpsOnly : Prop :=
  (∀ (i : Instr) (s t : State), exec i s = .next t → (∀ f, t.status ≠ .faulted f) →
    (∀ ra rb, i ≠ .cmp ra rb) → t.FL = s.FL) ∧
  (∀ (ra rb : RegIndex) (s : State) (fl : Byte),
    exec (.cmp ra rb) (s.setFL fl) = exec (.cmp ra rb) s) ∧
  (∀ (i : Instr) (s t : State) (fl : Byte), exec i s = .next t → (∀ f, t.status ≠ .faulted f) →
    (∀ r, i ≠ .jeq r) → (∀ r, i ≠ .jne r) →
    ∃ u, exec i (s.setFL fl) = .next u ∧ u.x = t.x ∧ u.pc = t.pc ∧ u.mem = t.mem ∧
      u.out = t.out ∧ u.status = t.status) ∧
  (∀ (r : RegIndex) (s : State) (fl : Byte), fl.getLsbD 0 = s.FL.getLsbD 0 →
    (∃ t u, exec (.jeq r) s = .next t ∧ exec (.jeq r) (s.setFL fl) = .next u ∧ u.pc = t.pc) ∧
    ∃ t u, exec (.jne r) s = .next t ∧ exec (.jne r) (s.setFL fl) = .next u ∧ u.pc = t.pc) ∧
  State.reset.FL = 0x00

/-! ### Stack -/

/-- R130: PUSH. The byte stored is `x[r]` read after the decrement, at the decremented stack pointer. -/
def Obligations.PushFollowsItsRule : Prop :=
  (∀ (r : RegIndex) (s : State),
    ∃ t, exec (.push r) s = .next t ∧ t.reg 7 = s.reg 7 - 1 ∧ SameRegsBut [7] s t ∧
      memRead (s.reg 7 - 1).toNat t = .ok (if r = 7 then s.reg 7 - 1 else s.reg r) ∧
      SameMemoryBut (s.reg 7 - 1).toNat s t ∧
      t.pc = s.pc + 2 ∧ t.FL = s.FL ∧ t.out = s.out ∧ t.status = s.status) ∧
  ChecksOneRegister 0x45 .push

/-- R132: POP. For R7 the increment applies to the byte just loaded. -/
def Obligations.PopFollowsItsRule : Prop :=
  (∀ (r : RegIndex) (s : State),
    ∃ v t, memRead (s.reg 7).toNat s = .ok v ∧ exec (.pop r) s = .next t ∧
      (r ≠ 7 → t.reg r = v ∧ t.reg 7 = s.reg 7 + 1) ∧ (r = 7 → t.reg 7 = v + 1) ∧
      SameRegsBut [r, 7] s t ∧ SameMemory s t ∧
      t.pc = s.pc + 2 ∧ t.FL = s.FL ∧ t.out = s.out ∧ t.status = s.status) ∧
  ChecksOneRegister 0x46 .pop

/-- R134: PUSH then POP between registers other than R7 copies the register and gives the stack pointer
back. -/
def Obligations.PushThenPopCopies : Prop :=
  ∀ (rs rd : RegIndex) (s : State), rs ≠ 7 → rd ≠ 7 → rs ≠ rd →
    ∃ t u, exec (.push rs) s = .next t ∧ exec (.pop rd) t = .next u ∧
      u.reg rs = s.reg rs ∧ u.reg rd = s.reg rs ∧ u.reg 7 = s.reg 7 ∧
      memRead (s.reg 7 - 1).toNat u = .ok (s.reg rs)

/-- R136: the stack pointer wraps modulo 256 and no stack access faults; with STACK_WRAP_FAULTS true, a PUSH or
a CALL at SP = 0 raises OutOfBounds(-1) and a POP or a RET at SP = 255 raises OutOfBounds(256), and elsewhere
the setting changes nothing. -/
def Obligations.StackWrapsOrFaultsByParameter : Prop :=
  State.reset.reg 7 = 0xF4 ∧
  (∀ (r : RegIndex) (s : State), s.reg 7 = 0 → ∃ t, exec (.push r) s = .next t ∧
    t.reg 7 = 255 ∧ memRead 255 t = .ok (if r = 7 then 255 else s.reg r)) ∧
  (∀ (r : RegIndex) (s : State), r ≠ 7 → s.reg 7 = 255 →
    ∃ t, exec (.pop r) s = .next t ∧ t.reg 7 = 0) ∧
  (∀ s : State, s.reg 7 = 255 → ∃ t, exec .ret s = .next t ∧ t.reg 7 = 0) ∧
  (∀ (r : RegIndex) (s : State),
    pushEffect true r s =
      if s.reg 7 = 0 then .error (.outOfBounds (-1)) else pushEffect false r s) ∧
  (∀ (r : RegIndex) (s : State), s.pc + 2 < 256 →
    callEffect true r s =
      if s.reg 7 = 0 then .error (.outOfBounds (-1)) else callEffect false r s) ∧
  (∀ (r : RegIndex) (s : State),
    popEffect true r s =
      if s.reg 7 = 255 then .error (.outOfBounds 256) else popEffect false r s) ∧
  (∀ s : State,
    retEffect true s =
      if s.reg 7 = 255 then .error (.outOfBounds 256) else retEffect false s)

/-! ### Control transfer -/

/-- CALL (43_control_transfer.md). Where pc + 2 is no address it raises OutOfBounds(pc + 2), which is 256 at
pc = 254; that nothing is written then is left unsaid, as R171 asks. -/
def Obligations.CallFollowsItsRule : Prop :=
  (∀ (r : RegIndex) (s : State), s.pc + 2 ≤ 255 →
    ∃ t, exec (.call r) s = .next t ∧ t.reg 7 = s.reg 7 - 1 ∧ SameRegsBut [7] s t ∧
      memRead (s.reg 7 - 1).toNat t = .ok (BitVec.ofNat 8 (s.pc + 2)) ∧
      SameMemoryBut (s.reg 7 - 1).toNat s t ∧
      t.pc = (if r = 7 then s.reg 7 - 1 else s.reg r).toNat ∧
      t.FL = s.FL ∧ t.out = s.out ∧ t.status = s.status) ∧
  (∀ (r : RegIndex) (s : State), 255 < s.pc + 2 →
    ∃ t, exec (.call r) s = .next t ∧ t.status = .faulted (.outOfBounds ↑(s.pc + 2)) ∧
      t.pc = s.pc ∧ t.out = s.out) ∧
  ChecksOneRegister 0x50 .call

/-- R142: RET. A return to a byte that is no opcode raises UnrecognizedOpcode at the next step. -/
def Obligations.RetFollowsItsRule : Prop :=
  (∀ s : State,
    ∃ v t, memRead (s.reg 7).toNat s = .ok v ∧ exec .ret s = .next t ∧ t.pc = v.toNat ∧
      t.reg 7 = s.reg 7 + 1 ∧ SameRegsBut [7] s t ∧ SameMemory s t ∧
      t.FL = s.FL ∧ t.out = s.out ∧ t.status = s.status) ∧
  (∀ s : State, s.status = .running → memRead s.pc s = .ok 0x11 → step s = exec .ret s) ∧
  FetchPastEndFaults ∧
  (∀ (s t : State) (b : Byte), s.status = .running → exec .ret s = .next t →
    memRead t.pc t = .ok b → b ∉ opcodeBytes → FaultsWith t (.unrecognizedOpcode b t.pc))

/-- R144: JMP. A jump to its own address changes nothing at all. -/
def Obligations.JmpFollowsItsRule : Prop :=
  (∀ (r : RegIndex) (s : State),
    ∃ t, exec (.jmp r) s = .next t ∧ t.pc = (s.reg r).toNat ∧ SameRegsBut [] s t ∧ SameMemory s t ∧
      t.FL = s.FL ∧ t.out = s.out ∧ t.status = s.status) ∧
  (∀ (r : RegIndex) (s : State), (s.reg r).toNat = s.pc → exec (.jmp r) s = .next s) ∧
  ChecksOneRegister 0x54 .jmp

/-- R146: JEQ. Its register operand is checked whether or not the jump would be taken. -/
def Obligations.JeqFollowsItsRule : Prop :=
  (∀ (r : RegIndex) (s : State),
    ∃ t, exec (.jeq r) s = .next t ∧
      t.pc = (if s.FL.getLsbD 0 = true then (s.reg r).toNat else s.pc + 2) ∧
      SameRegsBut [] s t ∧ SameMemory s t ∧ t.FL = s.FL ∧ t.out = s.out ∧
      t.status = s.status) ∧
  ChecksOneRegister 0x55 .jeq ∧
  FetchPastEndFaults

/-- R148: JNE. -/
def Obligations.JneFollowsItsRule : Prop :=
  (∀ (r : RegIndex) (s : State),
    ∃ t, exec (.jne r) s = .next t ∧
      t.pc = (if s.FL.getLsbD 0 = false then (s.reg r).toNat else s.pc + 2) ∧
      SameRegsBut [] s t ∧ SameMemory s t ∧ t.FL = s.FL ∧ t.out = s.out ∧
      t.status = s.status) ∧
  ChecksOneRegister 0x56 .jne

/-- R150: after a CALL at p ≤ 253, a RET in any later state that has the stack pointer and the pushed byte as
the CALL left them returns to p + 2, whatever the other registers hold. -/
def Obligations.RetReturnsBehindItsCall : Prop :=
  ∀ (r : RegIndex) (s : State), s.pc ≤ 253 →
    ∃ t, exec (.call r) s = .next t ∧
      ∀ u : State, u.reg 7 = t.reg 7 →
        memRead (u.reg 7).toNat u = memRead (t.reg 7).toNat t →
        ∃ w, exec .ret u = .next w ∧ w.pc = s.pc + 2

/-! ### Machine control -/

/-- HLT (44_machine_control.md), the only instruction that stops the machine normally; a halted machine runs again
only after the host resets it, and its step answers it unchanged, the model's reading of "the machine has
no step" (log 2). -/
def Obligations.HltFollowsItsRule : Prop :=
  (∀ s : State,
    ∃ t, exec .hlt s = .next t ∧ t.pc = s.pc + 1 ∧ t.status = .halted ∧ SameRegsBut [] s t ∧
      SameMemory s t ∧ t.FL = s.FL ∧ t.out = s.out) ∧
  (∀ s : State, s.status = .running → memRead s.pc s = .ok 0x01 → step s = exec .hlt s) ∧
  FetchPastEndFaults ∧
  (∀ s : State, s.status = .halted → step s = .next s) ∧
  (∀ (i : Instr) (s t : State), s.status = .running → exec i s = .next t →
    t.status = .halted → i = .hlt) ∧
  (∀ (c : Command) (h h' : Session), h.machine.status = .halted → c ≠ .reset →
    h.apply c = some h' → h'.machine.status = .halted)

/-- R162, R175 and R69: a byte that is none of the twelve opcodes (256 - 12 = 244 of them, 0x00 and 0xA0 among them) stops
the machine with the byte and pc in the record and changes nothing else; no other byte does. -/
def Obligations.UnrecognizedOpcodeStopsAndChangesNothing : Prop :=
  (∀ (s : State) (b : Byte), s.status = .running → memRead s.pc s = .ok b →
    (b ∉ opcodeBytes →
      ∃ t, step s = .next t ∧ t.status = .faulted (.unrecognizedOpcode b s.pc) ∧ t.pc = s.pc ∧
        SameRegsBut [] s t ∧ SameMemory s t ∧ t.FL = s.FL ∧ t.out = s.out) ∧
    (b ∈ opcodeBytes → ∀ c p, ¬ FaultsWith s (.unrecognizedOpcode c p))) ∧
  (0x00 : Byte) ∉ opcodeBytes ∧ (0xA0 : Byte) ∉ opcodeBytes ∧
  opcodeBytes.length = 12 ∧ opcodeBytes.Nodup

/-! ### Faults -/

/-- R172: a running machine within the pc bound of R25 raises OutOfBounds in exactly these cases, and always
with the address 256: fetch at 256, an operand read at 256, CALL's return address 256. -/
def Obligations.OutOfBoundsIsRaisedExactlyAtTheEndOfMemory : Prop :=
  ∀ s : State, s.status = .running → s.pc ≤ 256 →
    (∀ a : Int, FaultsWith s (.outOfBounds a) → a = 256) ∧
    (FaultsWith s (.outOfBounds 256) ↔
      s.pc = 256 ∨
      (s.pc = 255 ∧ s.mem.get 255 ∈ bytesWithFirst) ∨
      (s.pc = 254 ∧ s.mem.get 254 ∈ bytesWithSecond) ∨
      (s.pc = 254 ∧ s.mem.get 254 = 0x50 ∧ (s.mem.get 255).toNat ≤ 7))

/-- R173: a register-index operand above 7 raises InvalidRegister with that index, taken jump or not; LDI's
immediate is never checked. -/
def Obligations.InvalidRegisterIsRaisedAtDecode : Prop :=
  ∀ (s : State) (op a : Byte), s.status = .running →
    memRead s.pc s = .ok op → memRead (s.pc + 1) s = .ok a → op ∈ bytesWithFirst →
    (op ∉ bytesWithSecond → 7 < a.toNat → FaultsWith s (.invalidRegister a)) ∧
    ∀ b, memRead (s.pc + 2) s = .ok b → op ∈ bytesWithSecond →
      (7 < a.toNat → FaultsWith s (.invalidRegister a)) ∧
      (op ≠ 0x82 → a.toNat ≤ 7 → 7 < b.toNat → FaultsWith s (.invalidRegister b)) ∧
      (op = 0x82 → a.toNat ≤ 7 → Completes s)

/-- R174: the ALU raises UnsupportedOperation(op) for exactly the operations op outside R111, and no other fault;
no step raises it. -/
def Obligations.UnsupportedOperationIsNeverRaisedByAStep : Prop :=
  (∀ (s t : State) (op : AluOp), s.status = .running → step s = .next t →
    t.status ≠ .faulted (.unsupportedOperation op)) ∧
  ∀ (op : AluOp) (a b : Byte) (f : Fault),
    aluApply op a b = .error f ↔
      (op ≠ .add ∧ op ≠ .mul ∧ op ≠ .cmp) ∧ f = .unsupportedOperation op

/-- A fault stops the machine at the instruction that raised it, with nothing emitted, and every later step
leaves it there (60_exceptions.md, "Fault kinds" and "Trap entry and return"). That a later step answers the
state unchanged is the model's reading of "there is no step" (R9; log 2). -/
def Obligations.AFaultStopsAtItsInstructionForGood : Prop :=
  ∀ (s t : State) (f : Fault), s.status = .running → step s = .next t → t.status = .faulted f →
    t.pc = s.pc ∧ t.out = s.out ∧ ∀ n, Host.Core.run core n t = .next t

/-- R177: a stopped machine is not run again by anything the host may do but a reset, which gives the state of
R200. -/
def Obligations.OnlyAResetRunsAStoppedMachineAgain : Prop :=
  ∀ (c : Command) (h h' : Session), h.machine.status ≠ .running → h.apply c = some h' →
    (c = .reset ∧ h'.machine = State.reset) ∨ h'.machine.status = h.machine.status

/-- The codes of the four fault kinds, and what each records (60_exceptions.md section 1). -/
def Obligations.FaultCodesAreAsSpecified : Prop :=
  ∀ f : Fault,
    (f.code = 1 ↔ ∃ address, f = .outOfBounds address) ∧
    (f.code = 2 ↔ ∃ index, f = .invalidRegister index) ∧
    (f.code = 3 ↔ ∃ op, f = .unsupportedOperation op) ∧
    (f.code = 4 ↔ ∃ byte pc, f = .unrecognizedOpcode byte pc)

/-! ### Reset, memory, output -/

/-- R33, R200 and R205: after a reset and a load of N ≤ 256 bytes every piece of state has its value: the image
at 0 to N-1, zero from N on; a longer image is not loaded. -/
def Obligations.LoadedResetStateIsAsSpecified : Prop :=
  ∀ bytes : List Byte,
    (bytes.length ≤ 256 →
      ∃ s, State.reset.load bytes = some s ∧
        (∀ r : RegIndex, r ≠ 7 → s.reg r = 0x00) ∧ s.reg 7 = 0xF4 ∧ s.pc = 0 ∧ s.FL = 0x00 ∧
        s.status = .running ∧ s.out = [] ∧
        (∀ (a : Nat) (h : a < bytes.length), memRead a s = .ok bytes[a]) ∧
        ∀ a : Nat, bytes.length ≤ a → a < 256 → memRead a s = .ok 0x00) ∧
    (256 < bytes.length → State.reset.load bytes = none)

/-- R42: the memory port: a read gives the byte last written, a write changes that byte alone, and an
address outside 0 to 255 raises OutOfBounds with it and does nothing. -/
def Obligations.MemoryPortReadsTheLastWrite : Prop :=
  ∀ (a : Nat) (v : Byte) (s : State),
    (a ≤ 255 → (∃ w, memRead a s = .ok w) ∧
      ∃ t, memWrite a v s = .ok t ∧ memRead a t = .ok v ∧ SameMemoryBut a s t ∧
        t.x = s.x ∧ t.pc = s.pc ∧ t.FL = s.FL ∧ t.status = s.status ∧ t.out = s.out) ∧
    (255 < a → memRead a s = .error (.outOfBounds a) ∧ memWrite a v s = .error (.outOfBounds a))

/-- Of all instructions only PUSH and CALL change memory, and each only the byte at the decremented stack
pointer (20_memory.md, the access table). -/
def Obligations.OnlyPushAndCallWriteMemory : Prop :=
  ∀ s t : State, s.status = .running → step s = .next t → (∀ f, t.status ≠ .faulted f) →
    (memRead s.pc s ≠ .ok 0x45 → memRead s.pc s ≠ .ok 0x50 → SameMemory s t) ∧
    SameMemoryBut (s.reg 7 - 1).toNat s t

/-- A byte stored by PUSH over the next instruction is what the next step fetches: pushing HLT's byte there
halts the machine at the very next step (20_memory.md section 5, fetch coherence; 95_test_vectors.md P6). -/
def Obligations.APushedByteIsFetchedAtOnce : Prop :=
  ∀ (r : RegIndex) (s : State), s.status = .running →
    BytesAtPc s [0x45, BitVec.ofNat 8 r.val] → r ≠ 7 → s.reg r = 0x01 →
    (s.reg 7 - 1).toNat = s.pc + 2 →
    ∃ t u, step s = .next t ∧ step t = .next u ∧ u.status = .halted ∧ u.pc = s.pc + 3

/-- R30: out is empty at reset and grows only at its end, only by PRN, one value each; PRN never blocks. -/
def Obligations.OutputGrowsOnlyByPrn : Prop :=
  State.reset.out = [] ∧
  (∀ (r : RegIndex) (s : State), ∃ t, exec (.prn r) s = .next t ∧ t.out = s.out ++ [s.reg r]) ∧
  ∀ s t : State, step s = .next t →
    t.out = s.out ∨
      s.status = .running ∧ memRead s.pc s = .ok 0x47 ∧
        ∃ r : RegIndex, memRead (s.pc + 1) s = .ok (BitVec.ofNat 8 r.val) ∧ t.out = s.out ++ [s.reg r]

/-! ### Invariants -/

/-- The invariant holds after reset and after every load (R33, R205). -/
def Obligations.LoadedStatesHaveTheInvariant : Prop :=
  State.reset.Inv ∧ ∀ (bytes : List Byte) (s : State), State.reset.load bytes = some s → s.Inv

/-- Every step keeps the invariant, from every state that has it: memory in canonical form, FL one of its four
values, pc at most 256, and only the fault records of R172 to R175. The next state of a stopped machine is
the same state (log 2). -/
def Obligations.StepKeepsTheInvariant : Prop :=
  ∀ s t : State, s.Inv → step s = .next t → t.Inv

/-- R25: in every running state a loaded machine comes to, pc is at most 256. -/
def Obligations.RunningPcIsAtMost256 : Prop :=
  ∀ s : State, Reachable s → s.status = .running → s.pc ≤ 256

/-- R28: the values FL can hold are exactly 0x00, 0x01, 0x02 and 0x04: each of them is reached, and no other. -/
def Obligations.FlagValuesAreExactlyFour : Prop :=
  ∀ v : Byte, (∃ s, Reachable s ∧ s.FL = v) ↔ v = 0x00 ∨ v = 0x01 ∨ v = 0x02 ∨ v = 0x04

/-! ### The host's interface -/

/-- R221: the host's step is a step of a running machine and nothing for a stopped one. -/
def Obligations.HostStepStepsOnlyARunningMachine : Prop :=
  ∀ s : State, (s.status = .running → step s = .next (hostStep s)) ∧
    (s.status ≠ .running → hostStep s = s)

/-- R222: a bounded run is the steps of the machine up to the bound or the first stopped state; reaching the
bound neither halts nor faults, and another run goes on from there. Past a stopped state the iterated
`Machine.step` agrees with the run because a stopped machine's step answers the same state, the model's
reading of "there is no step" (log 2). -/
def Obligations.BoundedRunsAreStepsAndContinue : Prop :=
  (∀ (n : Nat) (s : State), Host.Core.run core n s = .next (runBounded n s)) ∧
  (∀ (m n : Nat) (s : State), runBounded (m + n) s = runBounded n (runBounded m s)) ∧
  (∀ (n : Nat) (s : State), s.status ≠ .running → runBounded n s = s)

/-- R225: what the host may do: reset at any time; load only after a reset and before the first step, at most
256 bytes, which changes memory alone; step and run at any time. -/
def Obligations.HostMovesAreAsTabled : Prop :=
  ∀ h : Session,
    h.apply .reset = some Session.fresh ∧
    Session.fresh.machine = State.reset ∧ Session.fresh.started = false ∧
    (∀ bytes : List Byte, (∃ h', h.apply (.load bytes) = some h') ↔
      h.started = false ∧ bytes.length ≤ 256) ∧
    (∀ (bytes : List Byte) (h' : Session), h.apply (.load bytes) = some h' →
      h'.started = false ∧ h'.machine.x = h.machine.x ∧ h'.machine.pc = h.machine.pc ∧
      h'.machine.FL = h.machine.FL ∧ h'.machine.status = h.machine.status ∧
      h'.machine.out = h.machine.out) ∧
    (∃ h', h.apply .step = some h' ∧ h'.started = true ∧ h'.machine = hostStep h.machine) ∧
    ∀ n : Nat, ∃ h', h.apply (.run (n + 1)) = some h' ∧ h'.started = true ∧
      h'.machine = runBounded (n + 1) h.machine
end

