-- ==== Sys2Proof/Laws/Decode.lean ====
section
/-! SUPPORT. What the decoder answers, said once: the opcode lookup, the operand checks, and the shape of an
encoding (spec/30_encoding.md R60 to R74). -/

namespace Sys2Proof

/-! ### The opcode map (R63, R64) -/

theorem opOf?_opcodeByte (o : Op) : opOf? (opcodeByte o) = some o := by
  cases o <;> rfl

/-- The lookup answers an operation exactly on that operation's byte. -/
theorem opOf?_eq_some {b : Byte} {o : Op} : opOf? b = some o ↔ b = opcodeByte o := by
  constructor
  · intro h
    have h' := List.find?_some h
    exact (eq_of_beq h').symm
  · rintro rfl
    exact opOf?_opcodeByte o

theorem opOf?_eq_none {b : Byte} : opOf? b = none ↔ ∀ o, b ≠ opcodeByte o := by
  constructor
  · intro h o hb
    rw [hb, opOf?_opcodeByte] at h
    cases h
  · intro h
    cases ho : opOf? b with
    | none => rfl
    | some o => exact absurd (opOf?_eq_some.1 ho) (h o)

/-! ### Register operands (R23, R65) -/

@[simp] theorem toNat_regByte (r : RegIndex) : (regByte r).toNat = r.val := by
  revert r; decide

@[simp] theorem regOperand_regByte (r : RegIndex) : regOperand (regByte r) = .ok r := by
  simp [regOperand]

theorem regOperand_of_toNat {v : Byte} {r : RegIndex} (h : v.toNat = r.val) :
    regOperand v = .ok r := by
  simp [regOperand, h]

theorem regOperand_high {v : Byte} (h : 7 < v.toNat) : regOperand v = .error (.invalidRegister v) := by
  simp [regOperand, show ¬ v.toNat < 8 by omega]

theorem regOperand_ok_iff {v : Byte} {r : RegIndex} : regOperand v = .ok r ↔ v = regByte r := by
  constructor
  · unfold regOperand
    split
    · rintro ⟨⟩
      apply BitVec.eq_of_toNat_eq
      simp
    · rintro ⟨⟩
  · rintro rfl
    exact regOperand_regByte r

/-! ### Operand forms (R71) -/

section
variable (rest : List Byte)

@[simp] theorem decodeReg_nil (mk : RegIndex → Instr) : decodeReg mk [] = .error (.missingByte 1) := rfl

@[simp] theorem decodeReg_cons (mk : RegIndex → Instr) (a : Byte) :
    decodeReg mk (a :: rest) = (regOperand a).map mk := by
  cases h : regOperand a <;> simp [decodeReg, operandByte, h, bind, Except.bind, pure, Except.pure, Except.map]

@[simp] theorem decodeRegReg_nil (mk : RegIndex → RegIndex → Instr) :
    decodeRegReg mk [] = .error (.missingByte 1) := rfl

@[simp] theorem decodeRegReg_one (mk : RegIndex → RegIndex → Instr) (a : Byte) :
    decodeRegReg mk [a] = .error (.missingByte 2) := rfl

@[simp] theorem decodeRegReg_cons (mk : RegIndex → RegIndex → Instr) (a b : Byte) :
    decodeRegReg mk (a :: b :: rest) =
      (regOperand a).bind fun ra => (regOperand b).map fun rb => mk ra rb := by
  cases h : regOperand a <;> cases h' : regOperand b <;>
    simp [decodeRegReg, operandByte, h, h', bind, Except.bind, pure, Except.pure, Except.map]

@[simp] theorem decodeRegImm_nil (mk : RegIndex → Byte → Instr) :
    decodeRegImm mk [] = .error (.missingByte 1) := rfl

@[simp] theorem decodeRegImm_one (mk : RegIndex → Byte → Instr) (a : Byte) :
    decodeRegImm mk [a] = .error (.missingByte 2) := rfl

@[simp] theorem decodeRegImm_cons (mk : RegIndex → Byte → Instr) (a b : Byte) :
    decodeRegImm mk (a :: b :: rest) = (regOperand a).map fun r => mk r b := by
  cases h : regOperand a <;>
    simp [decodeRegImm, operandByte, h, bind, Except.bind, pure, Except.pure, Except.map]

end

/-- Decoding dispatches on the opcode byte's operation (R63, R71). -/
theorem decode_cons_of_op {b : Byte} {o : Op} (h : b = opcodeByte o) (operands : List Byte) :
    decode (b :: operands) = decodeOperands o operands := by
  simp only [decode, opOf?_eq_some.2 h]

theorem decode_cons_unrecognized {b : Byte} (h : opOf? b = none) (operands : List Byte) :
    decode (b :: operands) = .error (.unrecognizedOpcode b) := by
  simp only [decode, h]

/-! ### The encoder -/

theorem encode_eq (i : Instr) : encode i = opcodeByte i.op :: operandBytes i := rfl

theorem length_encode (i : Instr) : (encode i).length = i.length := by
  cases i <;> rfl

theorem length_pos (i : Instr) : 0 < i.length := by
  cases i <;> simp [Instr.length]

theorem length_le_three (i : Instr) : i.length ≤ 3 := by
  cases i <;> simp [Instr.length]

theorem length_eq_operandCount (i : Instr) : i.length = 1 + operandCount i.op := by
  cases i <;> rfl

end Sys2Proof
end

