-- ==== Sys2Proof/Laws/Memory.lean ====
section
/-! SUPPORT. Memory: a read after a write (spec/20_memory.md R41), and that every memory operation keeps
the canonical form. -/

namespace Sys2Proof.Machine

/-! ### Reads after writes -/

theorem Memory.get_erase (m : Memory) (a b : Nat) :
    Memory.get (Memory.erase m a) b = if b = a then Memory.unlisted else Memory.get m b := by
  induction m with
  | nil => simp [Memory.erase, Memory.get]
  | cons c m ih =>
    obtain ⟨k, w⟩ := c
    simp only [Memory.erase] at ih ⊢
    by_cases hk : k = a
    · subst hk
      by_cases hb : b = k
      · subst hb; simpa using ih
      · simp [hb, Memory.get, ih]
    · by_cases hb : b = k
      · subst hb; simp [hk, Memory.get]
      · simp [hk, hb, Memory.get, ih]

theorem Memory.get_insert (m : Memory) (a b : Nat) (v : Byte) (h : ∀ c ∈ m, c.1 ≠ a) :
    Memory.get (Memory.insert m a v) b = if b = a then v else Memory.get m b := by
  induction m with
  | nil => simp [Memory.insert, Memory.get]
  | cons c m ih =>
    obtain ⟨k, w⟩ := c
    have hk : k ≠ a := h (k, w) (by simp)
    have ih := ih fun c hc => h c (List.mem_cons_of_mem _ hc)
    simp only [Memory.insert]
    split
    · simp [Memory.get]
    · by_cases hb : b = k
      · subst hb; simp [Memory.get, hk]
      · simp [Memory.get, hb, ih]

theorem Memory.mem_erase {m : Memory} {a : Nat} {c : Host.Cell} :
    c ∈ Memory.erase m a ↔ c ∈ m ∧ c.1 ≠ a := by
  simp [Memory.erase]

/-- A read gives the byte last written there, and every other address reads as before (R41). -/
theorem Memory.get_set (m : Memory) (a b : Nat) (v : Byte) :
    Memory.get (Memory.set m a v) b = if b = a then v else Memory.get m b := by
  simp only [Memory.set]
  split
  · rename_i h; rw [Memory.get_erase, h]
  · rw [Memory.get_insert _ _ _ _ fun c hc => (Memory.mem_erase.1 hc).2, Memory.get_erase]
    split <;> rfl

@[simp] theorem Memory.get_set_self (m : Memory) (a : Nat) (v : Byte) :
    Memory.get (Memory.set m a v) a = v := by
  simp [Memory.get_set]

theorem Memory.get_set_ne (m : Memory) {a b : Nat} (h : b ≠ a) (v : Byte) :
    Memory.get (Memory.set m a v) b = Memory.get m b := by
  simp [Memory.get_set, h]

/-- An image stored from `a` reads back byte for byte, and nothing else changes. -/
theorem Memory.get_setBytes (bytes : List Byte) (m : Memory) (a b : Nat) :
    Memory.get (Memory.setBytes m a bytes) b =
      if h : a ≤ b ∧ b - a < bytes.length then bytes[b - a] else Memory.get m b := by
  induction bytes generalizing m a with
  | nil => simp [Memory.setBytes]
  | cons v bytes ih =>
    rw [Memory.setBytes, ih, Memory.get_set]
    by_cases hb : b = a
    · subst hb; simp
    · by_cases hlt : a < b
      · obtain ⟨d, rfl⟩ : ∃ d, b = a + 1 + d := ⟨b - (a + 1), by omega⟩
        have e1 : a + 1 + d - (a + 1) = d := by omega
        have e2 : a + 1 + d - a = d + 1 := by omega
        have e3 : a ≤ a + 1 + d := by omega
        simp [e1, e2, e3, hb]
      · have e1 : ¬ a + 1 ≤ b := by omega
        have e2 : ¬ a ≤ b := by omega
        simp [e1, e2, hb]

/-! ### The canonical form -/

/-- The canonical form as propositions: what `Memory.wf` checks. -/
theorem Memory.wf_iff (m : Memory) :
    m.wf = true ↔ Memory.rising m = true ∧ ∀ c ∈ m, c.1 < Config.memSize ∧ c.2 ≠ Memory.unlisted := by
  simp [Memory.wf]

theorem Memory.rising_cons (c : Host.Cell) (m : Memory) :
    Memory.rising (c :: m) = true ↔ (∀ d ∈ m, c.1 < d.1) ∧ Memory.rising m = true := by
  simp [Memory.rising]

theorem Memory.rising_erase {m : Memory} (h : Memory.rising m = true) (a : Nat) :
    Memory.rising (Memory.erase m a) = true := by
  induction m with
  | nil => rfl
  | cons c m ih =>
    obtain ⟨h1, h2⟩ := (Memory.rising_cons c m).1 h
    by_cases hc : c.1 = a
    · simpa [Memory.erase, hc] using ih h2
    · have : Memory.erase (c :: m) a = c :: Memory.erase m a := by simp [Memory.erase, hc]
      rw [this, Memory.rising_cons]
      exact ⟨fun d hd => h1 d (Memory.mem_erase.1 hd).1, ih h2⟩

theorem Memory.mem_insert {m : Memory} {a : Nat} {v : Byte} {c : Host.Cell} :
    c ∈ Memory.insert m a v ↔ c = (a, v) ∨ c ∈ m := by
  induction m with
  | nil => simp [Memory.insert]
  | cons d m ih =>
    obtain ⟨k, w⟩ := d
    simp only [Memory.insert]
    split
    · simp
    · simp only [List.mem_cons, ih]; tauto

theorem Memory.rising_insert {m : Memory} (h : Memory.rising m = true) {a : Nat}
    (ha : ∀ c ∈ m, c.1 ≠ a) (v : Byte) : Memory.rising (Memory.insert m a v) = true := by
  induction m with
  | nil => rfl
  | cons d m ih =>
    obtain ⟨k, w⟩ := d
    obtain ⟨h1, h2⟩ := (Memory.rising_cons _ m).1 h
    have hk : k ≠ a := ha (k, w) (by simp)
    simp only [Memory.insert]
    split
    · rename_i hlt
      rw [Memory.rising_cons]
      refine ⟨fun d hd => ?_, h⟩
      rcases List.mem_cons.1 hd with rfl | hd
      · exact hlt
      · exact lt_trans hlt (h1 d hd)
    · rename_i hlt
      rw [Memory.rising_cons]
      refine ⟨fun d hd => ?_, ih h2 fun c hc => ha c (List.mem_cons_of_mem _ hc)⟩
      rcases Memory.mem_insert.1 hd with rfl | hd
      · exact lt_of_le_of_ne (not_lt.1 hlt) hk
      · exact h1 d hd

/-- Writing a byte inside memory keeps the canonical form. -/
theorem Memory.wf_set {m : Memory} (h : m.wf = true) {a : Nat} (ha : a < Config.memSize) (v : Byte) :
    (Memory.set m a v).wf = true := by
  rw [Memory.wf_iff] at h ⊢
  obtain ⟨hr, hc⟩ := h
  have hr' := Memory.rising_erase hr a
  simp only [Memory.set]
  split
  · exact ⟨hr', fun c hm => hc c (Memory.mem_erase.1 hm).1⟩
  · rename_i hv
    refine ⟨Memory.rising_insert hr' (fun c hm => (Memory.mem_erase.1 hm).2) v, fun c hm => ?_⟩
    rcases Memory.mem_insert.1 hm with rfl | hm
    · exact ⟨ha, hv⟩
    · exact hc c (Memory.mem_erase.1 hm).1

/-- Storing an image inside memory keeps the canonical form. -/
theorem Memory.wf_setBytes (bytes : List Byte) {m : Memory} (h : m.wf = true) (a : Nat)
    (ha : a + bytes.length ≤ Config.memSize) : (Memory.setBytes m a bytes).wf = true := by
  induction bytes generalizing m a with
  | nil => exact h
  | cons v bytes ih =>
    simp only [List.length_cons] at ha
    exact ih (Memory.wf_set h (by omega) v) _ (by omega)

/-- Memory right after reset is in canonical form. -/
theorem Memory.wf_reset : State.reset.mem.wf = true := rfl

end Sys2Proof.Machine
end

