-- ==== Sys2Proof/Laws/State.lean ====
section
/-! SUPPORT. What each update of the state does to each field, and what each accessor reads after it. -/

namespace Sys2Proof.Machine

variable (s : State)

/-! ### setReg -/

@[simp] theorem State.setReg_pc (r : RegIndex) (v : Byte) : (s.setReg r v).pc = s.pc := rfl
@[simp] theorem State.setReg_FL (r : RegIndex) (v : Byte) : (s.setReg r v).FL = s.FL := rfl
@[simp] theorem State.setReg_mem (r : RegIndex) (v : Byte) : (s.setReg r v).mem = s.mem := rfl
@[simp] theorem State.setReg_status (r : RegIndex) (v : Byte) : (s.setReg r v).status = s.status := rfl
@[simp] theorem State.setReg_out (r : RegIndex) (v : Byte) : (s.setReg r v).out = s.out := rfl
@[simp] theorem State.setReg_flagE (r : RegIndex) (v : Byte) : (s.setReg r v).flagE = s.flagE := rfl
@[simp] theorem memRead_setReg (r : RegIndex) (v : Byte) (a : Nat) : memRead a (s.setReg r v) = memRead a s := rfl

/-! ### setSp -/

@[simp] theorem State.setSp_pc (v : Byte) : (s.setSp v).pc = s.pc := rfl
@[simp] theorem State.setSp_FL (v : Byte) : (s.setSp v).FL = s.FL := rfl
@[simp] theorem State.setSp_mem (v : Byte) : (s.setSp v).mem = s.mem := rfl
@[simp] theorem State.setSp_status (v : Byte) : (s.setSp v).status = s.status := rfl
@[simp] theorem State.setSp_out (v : Byte) : (s.setSp v).out = s.out := rfl
@[simp] theorem State.setSp_flagE (v : Byte) : (s.setSp v).flagE = s.flagE := rfl
@[simp] theorem memRead_setSp (v : Byte) (a : Nat) : memRead a (s.setSp v) = memRead a s := rfl

/-! ### setPc -/

@[simp] theorem State.setPc_x (n : Nat) : (s.setPc n).x = s.x := rfl
@[simp] theorem State.setPc_pc (n : Nat) : (s.setPc n).pc = n := rfl
@[simp] theorem State.setPc_FL (n : Nat) : (s.setPc n).FL = s.FL := rfl
@[simp] theorem State.setPc_mem (n : Nat) : (s.setPc n).mem = s.mem := rfl
@[simp] theorem State.setPc_status (n : Nat) : (s.setPc n).status = s.status := rfl
@[simp] theorem State.setPc_out (n : Nat) : (s.setPc n).out = s.out := rfl
@[simp] theorem State.setPc_reg (n : Nat) (q : RegIndex) : (s.setPc n).reg q = s.reg q := rfl
@[simp] theorem State.setPc_sp (n : Nat) : (s.setPc n).sp = s.sp := rfl
@[simp] theorem State.setPc_flagE (n : Nat) : (s.setPc n).flagE = s.flagE := rfl
@[simp] theorem memRead_setPc (n : Nat) (a : Nat) : memRead a (s.setPc n) = memRead a s := rfl

/-! ### setFL -/

@[simp] theorem State.setFL_x (v : Byte) : (s.setFL v).x = s.x := rfl
@[simp] theorem State.setFL_pc (v : Byte) : (s.setFL v).pc = s.pc := rfl
@[simp] theorem State.setFL_FL (v : Byte) : (s.setFL v).FL = v := rfl
@[simp] theorem State.setFL_mem (v : Byte) : (s.setFL v).mem = s.mem := rfl
@[simp] theorem State.setFL_status (v : Byte) : (s.setFL v).status = s.status := rfl
@[simp] theorem State.setFL_out (v : Byte) : (s.setFL v).out = s.out := rfl
@[simp] theorem State.setFL_reg (v : Byte) (q : RegIndex) : (s.setFL v).reg q = s.reg q := rfl
@[simp] theorem State.setFL_sp (v : Byte) : (s.setFL v).sp = s.sp := rfl
@[simp] theorem memRead_setFL (v : Byte) (a : Nat) : memRead a (s.setFL v) = memRead a s := rfl

/-! ### emit -/

@[simp] theorem State.emit_x (v : Byte) : (s.emit v).x = s.x := rfl
@[simp] theorem State.emit_pc (v : Byte) : (s.emit v).pc = s.pc := rfl
@[simp] theorem State.emit_FL (v : Byte) : (s.emit v).FL = s.FL := rfl
@[simp] theorem State.emit_mem (v : Byte) : (s.emit v).mem = s.mem := rfl
@[simp] theorem State.emit_status (v : Byte) : (s.emit v).status = s.status := rfl
@[simp] theorem State.emit_out (v : Byte) : (s.emit v).out = s.out ++ [v] := rfl
@[simp] theorem State.emit_reg (v : Byte) (q : RegIndex) : (s.emit v).reg q = s.reg q := rfl
@[simp] theorem State.emit_sp (v : Byte) : (s.emit v).sp = s.sp := rfl
@[simp] theorem State.emit_flagE (v : Byte) : (s.emit v).flagE = s.flagE := rfl
@[simp] theorem memRead_emit (v : Byte) (a : Nat) : memRead a (s.emit v) = memRead a s := rfl

/-! ### setStatus -/

@[simp] theorem State.setStatus_x (st : Status) : (s.setStatus st).x = s.x := rfl
@[simp] theorem State.setStatus_pc (st : Status) : (s.setStatus st).pc = s.pc := rfl
@[simp] theorem State.setStatus_FL (st : Status) : (s.setStatus st).FL = s.FL := rfl
@[simp] theorem State.setStatus_mem (st : Status) : (s.setStatus st).mem = s.mem := rfl
@[simp] theorem State.setStatus_status (st : Status) : (s.setStatus st).status = st := rfl
@[simp] theorem State.setStatus_out (st : Status) : (s.setStatus st).out = s.out := rfl
@[simp] theorem State.setStatus_reg (st : Status) (q : RegIndex) : (s.setStatus st).reg q = s.reg q := rfl
@[simp] theorem State.setStatus_sp (st : Status) : (s.setStatus st).sp = s.sp := rfl
@[simp] theorem State.setStatus_flagE (st : Status) : (s.setStatus st).flagE = s.flagE := rfl
@[simp] theorem memRead_setStatus (st : Status) (a : Nat) : memRead a (s.setStatus st) = memRead a s := rfl

/-! ### setMem -/

@[simp] theorem State.setMem_x (m : Memory) : (s.setMem m).x = s.x := rfl
@[simp] theorem State.setMem_pc (m : Memory) : (s.setMem m).pc = s.pc := rfl
@[simp] theorem State.setMem_FL (m : Memory) : (s.setMem m).FL = s.FL := rfl
@[simp] theorem State.setMem_mem (m : Memory) : (s.setMem m).mem = m := rfl
@[simp] theorem State.setMem_status (m : Memory) : (s.setMem m).status = s.status := rfl
@[simp] theorem State.setMem_out (m : Memory) : (s.setMem m).out = s.out := rfl
@[simp] theorem State.setMem_reg (m : Memory) (q : RegIndex) : (s.setMem m).reg q = s.reg q := rfl
@[simp] theorem State.setMem_sp (m : Memory) : (s.setMem m).sp = s.sp := rfl
@[simp] theorem State.setMem_flagE (m : Memory) : (s.setMem m).flagE = s.flagE := rfl

/-! ### advance -/

@[simp] theorem State.advance_x (o : Op) : (s.advance o).x = s.x := rfl
@[simp] theorem State.advance_pc (o : Op) : (s.advance o).pc = s.pc + 1 + operandCount o := rfl
@[simp] theorem State.advance_FL (o : Op) : (s.advance o).FL = s.FL := rfl
@[simp] theorem State.advance_mem (o : Op) : (s.advance o).mem = s.mem := rfl
@[simp] theorem State.advance_status (o : Op) : (s.advance o).status = s.status := rfl
@[simp] theorem State.advance_out (o : Op) : (s.advance o).out = s.out := rfl
@[simp] theorem State.advance_reg (o : Op) (q : RegIndex) : (s.advance o).reg q = s.reg q := rfl
@[simp] theorem State.advance_sp (o : Op) : (s.advance o).sp = s.sp := rfl
@[simp] theorem State.advance_flagE (o : Op) : (s.advance o).flagE = s.flagE := rfl
@[simp] theorem memRead_advance (o : Op) (a : Nat) : memRead a (s.advance o) = memRead a s := rfl

/-! ### jumpTo -/

@[simp] theorem State.jumpTo_x (v : Byte) : (s.jumpTo v).x = s.x := rfl
@[simp] theorem State.jumpTo_pc (v : Byte) : (s.jumpTo v).pc = v.toNat := rfl
@[simp] theorem State.jumpTo_FL (v : Byte) : (s.jumpTo v).FL = s.FL := rfl
@[simp] theorem State.jumpTo_mem (v : Byte) : (s.jumpTo v).mem = s.mem := rfl
@[simp] theorem State.jumpTo_status (v : Byte) : (s.jumpTo v).status = s.status := rfl
@[simp] theorem State.jumpTo_out (v : Byte) : (s.jumpTo v).out = s.out := rfl
@[simp] theorem State.jumpTo_reg (v : Byte) (q : RegIndex) : (s.jumpTo v).reg q = s.reg q := rfl
@[simp] theorem State.jumpTo_sp (v : Byte) : (s.jumpTo v).sp = s.sp := rfl
@[simp] theorem State.jumpTo_flagE (v : Byte) : (s.jumpTo v).flagE = s.flagE := rfl
@[simp] theorem memRead_jumpTo (v : Byte) (a : Nat) : memRead a (s.jumpTo v) = memRead a s := rfl

/-! ### shrinkStack -/

@[simp] theorem State.shrinkStack_pc : s.shrinkStack.pc = s.pc := rfl
@[simp] theorem State.shrinkStack_FL : s.shrinkStack.FL = s.FL := rfl
@[simp] theorem State.shrinkStack_mem : s.shrinkStack.mem = s.mem := rfl
@[simp] theorem State.shrinkStack_status : s.shrinkStack.status = s.status := rfl
@[simp] theorem State.shrinkStack_out : s.shrinkStack.out = s.out := rfl
@[simp] theorem State.shrinkStack_flagE : s.shrinkStack.flagE = s.flagE := rfl
@[simp] theorem memRead_shrinkStack (a : Nat) : memRead a s.shrinkStack = memRead a s := rfl

/-! ### Registers -/

theorem State.reg_setReg (r q : RegIndex) (v : Byte) :
    (s.setReg r v).reg q = if q = r then v else s.reg q := by
  simp [State.reg, State.setReg, Vector.getElem_set, Fin.ext_iff, eq_comm]

@[simp] theorem State.reg_setReg_self (r : RegIndex) (v : Byte) : (s.setReg r v).reg r = v := by
  simp [State.reg_setReg]

theorem State.reg_setReg_ne {r q : RegIndex} (h : q ≠ r) (v : Byte) :
    (s.setReg r v).reg q = s.reg q := by
  simp [State.reg_setReg, h]

theorem State.reg_setSp (q : RegIndex) (v : Byte) :
    (s.setSp v).reg q = if q = 7 then v else s.reg q :=
  State.reg_setReg s 7 q v

theorem State.reg_shrinkStack (q : RegIndex) :
    s.shrinkStack.reg q = if q = 7 then s.reg 7 + 1 else s.reg q :=
  State.reg_setSp s q _

/-- SP is x[7], with no storage of its own (10_state.md R20). -/
theorem State.sp_eq : s.sp = s.reg 7 := rfl

@[simp] theorem State.sp_setSp (v : Byte) : (s.setSp v).sp = v := State.reg_setReg_self s _ v

theorem State.sp_setReg (r : RegIndex) (v : Byte) :
    (s.setReg r v).sp = if r = 7 then v else s.reg 7 := by
  simp [State.sp_eq, State.reg_setReg, eq_comm]

/-! ### Operand forms -/

@[simp] theorem registerOperand_eq (r : RegIndex) : registerOperand r s = s.reg r := rfl

@[simp] theorem immediateOperand_eq (imm : Byte) : immediateOperand imm = imm := rfl

@[simp] theorem targetOperand_eq (r : RegIndex) : targetOperand r s = s.reg r := rfl

/-! ### The reset state (10_state.md R33) -/

theorem State.reset_reg (r : RegIndex) : State.reset.reg r = if r = 7 then 0xF4 else 0 := by
  revert r; decide

end Sys2Proof.Machine
end

