-- ==== Sys2Proof/Laws/Ops.lean ====
section
/-! SUPPORT. What each shared operation of Ops.lean answers, said once. -/

namespace Sys2Proof.Machine

/-! ### The memory port (20_memory.md R42) -/

theorem memRead_inside {a : Nat} (h : a < 256) (s : State) : memRead a s = .ok (s.mem.get a) := by
  simp [memRead, Config.memSize, h]

theorem memRead_outside {a : Nat} (h : ¬ a < 256) (s : State) :
    memRead a s = .error (.outOfBounds a) := by
  simp [memRead, Config.memSize, h]

theorem memRead_ok_iff {a : Nat} {s : State} {v : Byte} :
    memRead a s = .ok v ↔ a < 256 ∧ s.mem.get a = v := by
  unfold memRead; split <;> simp_all [Config.memSize]

theorem memWrite_inside {a : Nat} (h : a < 256) (v : Byte) (s : State) :
    memWrite a v s = .ok (s.setMem (s.mem.set a v)) := by
  simp [memWrite, Config.memSize, h]

theorem memWrite_outside {a : Nat} (h : ¬ a < 256) (v : Byte) (s : State) :
    memWrite a v s = .error (.outOfBounds a) := by
  simp [memWrite, Config.memSize, h]

/-- The one thing a stored byte changes: what its own address reads as. -/
theorem memRead_setMem_set (s : State) (a b : Nat) (v : Byte) (ha : a < 256) :
    memRead b (s.setMem (s.mem.set a v)) = if b = a then .ok v else memRead b s := by
  by_cases hb : b = a
  · subst hb; simp [memRead, Config.memSize, ha]
  · simp [memRead, Memory.get_set_ne _ hb, hb]

/-! ### Faults -/

@[simp] theorem settle_ok (s t : State) : settle s (.ok t) = .next t := rfl

@[simp] theorem settle_error (s : State) (f : Fault) : settle s (.error f) = raise f s := rfl

/-- A step that ends in `settle` answers a next state: the one its checks allowed, or, where one raised a
fault, the state before with the fault taken (R171). -/
theorem settle_cases (s : State) (e : Except Fault State) :
    (∃ t, e = .ok t ∧ settle s e = .next t) ∨
      ∃ f, e = .error f ∧ settle s e = .next (s.setStatus (.faulted f)) := by
  cases e with
  | ok t => exact .inl ⟨t, rfl, rfl⟩
  | error f => exact .inr ⟨f, rfl, rfl⟩

/-! ### The stack (42_stack.md R136) -/

theorem byte_lt (v : Byte) : v.toNat < 256 := v.isLt

/-- At the machine's setting the stack pointer wraps and the push never faults. -/
@[simp] theorem growStack_default (s : State) :
    growStack Config.stackWrapFaults s = .ok (s.setSp (s.sp - 1)) := rfl

/-- At the machine's setting a pop reads the byte at the stack pointer and never faults. -/
@[simp] theorem loadTop_default (s : State) :
    loadTop Config.stackWrapFaults s = .ok (s.mem.get s.sp.toNat) :=
  memRead_inside (byte_lt _) s

@[simp] theorem storeTop_eq (v : Byte) (s : State) :
    storeTop v s = .ok (s.setMem (s.mem.set s.sp.toNat v)) :=
  memWrite_inside (byte_lt _) v s

theorem growStack_wrapFaults (s : State) :
    growStack true s = if s.sp = 0 then .error (.outOfBounds (-1)) else .ok (s.setSp (s.sp - 1)) := by
  simp only [growStack, pushGuard, Bool.true_and, beq_iff_eq]
  split <;> rfl

theorem loadTop_wrapFaults (s : State) :
    loadTop true s =
      if s.sp = 255 then .error (.outOfBounds 256) else .ok (s.mem.get s.sp.toNat) := by
  simp only [loadTop, popGuard, Bool.true_and, beq_iff_eq]
  split
  · rfl
  · exact memRead_inside (byte_lt _) s

/-! ### CALL's return address (43_control_transfer.md R140) -/

theorem returnAddress_fits {s : State} (h : s.pc + 2 < 256) :
    returnAddress s = .ok (BitVec.ofNat 8 (s.pc + 2)) := by
  simp [returnAddress, Config.memSize, operandCount, operandKinds, wrap8, h]

theorem returnAddress_fails {s : State} (h : ¬ s.pc + 2 < 256) :
    returnAddress s = .error (.outOfBounds ↑(s.pc + 2)) := by
  simp [returnAddress, Config.memSize, operandCount, operandKinds, h, add_assoc]

/-! ### Flags (10_state.md R26, 41_alu.md R115) -/

/-- The E bit is bit 0 of FL. -/
theorem flagE_eq (s : State) : s.flagE = s.FL.getLsbD 0 := by
  have h : ∀ v : Byte, flagTest flagMaskE v = v.getLsbD 0 := by decide
  exact h s.FL

theorem compareFlags_cases (va vb : Byte) :
    (va.toNat = vb.toNat ∧ compareFlags va vb = 0x01) ∨
      (vb.toNat < va.toNat ∧ compareFlags va vb = 0x02) ∨
      (va.toNat < vb.toNat ∧ compareFlags va vb = 0x04) := by
  unfold compareFlags flagMaskE flagMaskG flagMaskL
  split
  · simp_all
  · split
    · simp_all
    · refine .inr (.inr ⟨?_, rfl⟩); omega

end Sys2Proof.Machine
end

