-- ==== Sys2Proof/Laws/Exec.lean ====
section
/-! SUPPORT. What each instruction's meaning answers, one equation per meaning, in the updates of
Laws/State.lean (spec/40_register_io.md to spec/44_machine_control.md). -/

namespace Sys2Proof.Machine

/-- The state PUSH and CALL leave behind them before pc moves: the stack grown by `v`, which is stored at
the decremented stack pointer. -/
def State.pushed (s : State) (v : Byte) : State :=
  (s.setSp (s.sp - 1)).setMem (s.mem.set (s.sp - 1).toNat v)

section
variable (s : State) (v : Byte)

@[simp] theorem State.pushed_pc : (s.pushed v).pc = s.pc := rfl
@[simp] theorem State.pushed_FL : (s.pushed v).FL = s.FL := rfl
@[simp] theorem State.pushed_status : (s.pushed v).status = s.status := rfl
@[simp] theorem State.pushed_out : (s.pushed v).out = s.out := rfl
@[simp] theorem State.pushed_mem : (s.pushed v).mem = s.mem.set (s.sp - 1).toNat v := rfl

theorem State.pushed_reg (q : RegIndex) :
    (s.pushed v).reg q = if q = 7 then s.sp - 1 else s.reg q :=
  State.reg_setSp s q _

theorem memRead_pushed (a : Nat) :
    memRead a (s.pushed v) = if a = (s.sp - 1).toNat then .ok v else memRead a s :=
  memRead_setMem_set (s.setSp (s.sp - 1)) _ a v (byte_lt _)

end

theorem execLdi_eq (r : RegIndex) (imm : Byte) (s : State) :
    exec (.ldi r imm) s = .next ((s.setReg r imm).advance .ldi) := rfl

theorem execPrn_eq (r : RegIndex) (s : State) :
    exec (.prn r) s = .next ((s.emit (s.reg r)).advance .prn) := rfl

theorem execMul_eq (ra rb : RegIndex) (s : State) :
    exec (.mul ra rb) s =
      .next ((s.setReg ra (BitVec.ofNat 8 ((s.reg ra).toNat * (s.reg rb).toNat))).advance .mul) := rfl

theorem execCmp_eq (ra rb : RegIndex) (s : State) :
    exec (.cmp ra rb) s =
      .next ((s.setFL (compareFlags (s.reg ra) (s.reg rb))).advance .cmp) := rfl

/-- PUSH never faults, at the machine's setting. -/
theorem execPush_eq (r : RegIndex) (s : State) :
    exec (.push r) s =
      .next ((s.pushed (if r = 7 then s.sp - 1 else s.reg r)).advance .push) := by
  have h : (s.setSp (s.sp - 1)).reg r = if r = 7 then s.sp - 1 else s.reg r := State.reg_setSp s r _
  simp only [exec, execPush, pushEffect, growStack_default, bind, Except.bind, storeTop_eq,
    registerOperand_eq, h]
  simp [State.pushed, pure, Except.pure]

/-- POP never faults, at the machine's setting. -/
theorem execPop_eq (r : RegIndex) (s : State) :
    exec (.pop r) s =
      .next ((s.setReg r (s.mem.get s.sp.toNat)).shrinkStack.advance .pop) := by
  simp only [exec, execPop, popEffect, loadTop_default, bind, Except.bind]
  rfl

/-- CALL where its return address is an address. -/
theorem execCall_fits (r : RegIndex) (s : State) (h : s.pc + 2 < 256) :
    exec (.call r) s =
      .next ((s.pushed (BitVec.ofNat 8 (s.pc + 2))).jumpTo (if r = 7 then s.sp - 1 else s.reg r)) := by
  simp only [exec, execCall, callEffect, returnAddress_fits h, growStack_default, bind, Except.bind,
    storeTop_eq, targetOperand_eq]
  simp [State.pushed, pure, Except.pure, State.reg_setSp]

/-- CALL where its return address is no address: OutOfBounds, and nothing is written. -/
theorem execCall_fails (r : RegIndex) (s : State) (h : ¬ s.pc + 2 < 256) :
    exec (.call r) s = .next (s.setStatus (.faulted (.outOfBounds ↑(s.pc + 2)))) := by
  simp only [exec, execCall, callEffect, returnAddress_fails h, bind, Except.bind]
  rfl

theorem execRet_eq (s : State) :
    exec .ret s = .next (s.jumpTo (s.mem.get s.sp.toNat)).shrinkStack := by
  simp only [exec, execRet, retEffect, loadTop_default, bind, Except.bind]
  rfl

theorem execJmp_eq (r : RegIndex) (s : State) : exec (.jmp r) s = .next (s.jumpTo (s.reg r)) := rfl

theorem execJeq_eq (r : RegIndex) (s : State) :
    exec (.jeq r) s = .next (if s.flagE then s.jumpTo (s.reg r) else s.advance .jeq) := rfl

theorem execJne_eq (r : RegIndex) (s : State) :
    exec (.jne r) s = .next (if s.flagE then s.advance .jne else s.jumpTo (s.reg r)) := rfl

theorem execHlt_eq (s : State) : exec .hlt s = .next ((s.advance .hlt).setStatus .halted) := rfl

/-- Every meaning answers a next state: none refuses, none answers a host fault. -/
theorem exec_next (i : Instr) (s : State) : ∃ t, exec i s = .next t := by
  cases i with
  | call r =>
    by_cases h : s.pc + 2 < 256
    · exact ⟨_, execCall_fits r s h⟩
    · exact ⟨_, execCall_fails r s h⟩
  | push r => exact ⟨_, execPush_eq r s⟩
  | pop r => exact ⟨_, execPop_eq r s⟩
  | ret => exact ⟨_, execRet_eq s⟩
  | hlt => exact ⟨_, execHlt_eq s⟩
  | prn r => exact ⟨_, execPrn_eq r s⟩
  | jmp r => exact ⟨_, execJmp_eq r s⟩
  | jeq r => exact ⟨_, execJeq_eq r s⟩
  | jne r => exact ⟨_, execJne_eq r s⟩
  | ldi r imm => exact ⟨_, execLdi_eq r imm s⟩
  | mul ra rb => exact ⟨_, execMul_eq ra rb s⟩
  | cmp ra rb => exact ⟨_, execCmp_eq ra rb s⟩

end Sys2Proof.Machine
end

