-- ==== Sys2Proof/Laws/Step.lean ====
section
/-! SUPPORT. What a fetch and a step can do, said once: the fetch window, the decoding of what stands at pc,
and the inversion of a step (spec/30_encoding.md R70, R71, R73). -/

namespace Sys2Proof.Machine

/-! ### The fetch window -/

theorem fetchWindow_succ_inside (n : Nat) {a : Nat} (h : a < 256) (s : State) :
    fetchWindow (n + 1) a s = s.mem.get a :: fetchWindow n (a + 1) s := by
  simp [fetchWindow, memRead_inside h]

theorem fetchWindow_outside (n : Nat) {a : Nat} (h : ¬ a < 256) (s : State) :
    fetchWindow n a s = [] := by
  cases n with
  | zero => rfl
  | succ n => simp [fetchWindow, memRead_outside h]

/-- The bytes from pc on that have an address, in the four cases of where pc is. -/
theorem fetchWindow_cases (s : State) :
    (256 ≤ s.pc ∧ fetchWindow 3 s.pc s = []) ∨
      (s.pc = 255 ∧ fetchWindow 3 s.pc s = [s.mem.get s.pc]) ∨
      (s.pc = 254 ∧ fetchWindow 3 s.pc s = [s.mem.get s.pc, s.mem.get (s.pc + 1)]) ∨
      (s.pc < 254 ∧
        fetchWindow 3 s.pc s =
          [s.mem.get s.pc, s.mem.get (s.pc + 1), s.mem.get (s.pc + 2)]) := by
  by_cases h0 : s.pc < 256
  · rw [fetchWindow_succ_inside 2 h0]
    by_cases h1 : s.pc + 1 < 256
    · rw [fetchWindow_succ_inside 1 h1]
      by_cases h2 : s.pc + 2 < 256
      · rw [fetchWindow_succ_inside 0 (a := s.pc + 1 + 1) h2]
        exact .inr (.inr (.inr ⟨by omega, rfl⟩))
      · rw [fetchWindow_outside 1 (a := s.pc + 1 + 1) h2]
        exact .inr (.inr (.inl ⟨by omega, rfl⟩))
    · rw [fetchWindow_outside 2 h1]
      exact .inr (.inl ⟨by omega, rfl⟩)
  · exact .inl ⟨by omega, fetchWindow_outside 3 h0 s⟩

theorem fetchDecode_of_ok {s : State} {i : Instr} (h : decode (fetchWindow 3 s.pc s) = .ok i) :
    fetchDecode s = .ok i := by
  simp [fetchDecode, h]

theorem fetchDecode_of_error {s : State} {e : DecodeError}
    (h : decode (fetchWindow 3 s.pc s) = .error e) :
    fetchDecode s = .error (decodeFault s.pc e) := by
  simp [fetchDecode, h]

/-! ### A step -/

theorem step_stopped {s : State} (h : s.status ≠ .running) : step s = .next s := by
  unfold step
  split
  · contradiction
  · rfl
  · rfl

theorem step_decoded {s : State} (hr : s.status = .running) {i : Instr}
    (h : fetchDecode s = .ok i) : step s = exec i s := by
  simp [step, hr, h]

theorem step_faulted {s : State} (hr : s.status = .running) {f : Fault}
    (h : fetchDecode s = .error f) : step s = .next (s.setStatus (.faulted f)) := by
  simp [step, hr, h, raise]

/-- Every step answers a next state. -/
theorem step_next (s : State) : ∃ t, step s = .next t := by
  by_cases hr : s.status = .running
  · cases h : fetchDecode s with
    | ok i => rw [step_decoded hr h]; exact exec_next i s
    | error f => exact ⟨_, step_faulted hr h⟩
  · exact ⟨s, step_stopped hr⟩

/-- Everything a step of a running machine can do: run what stands at pc, or take the fetch's fault. -/
theorem step_cases {s t : State} (hr : s.status = .running) (h : step s = .next t) :
    (∃ i, fetchDecode s = .ok i ∧ exec i s = .next t) ∨
      ∃ f, fetchDecode s = .error f ∧ t = s.setStatus (.faulted f) := by
  cases hd : fetchDecode s with
  | ok i => exact .inl ⟨i, rfl, by rw [← step_decoded hr hd, h]⟩
  | error f =>
    rw [step_faulted hr hd] at h
    cases h
    exact .inr ⟨f, rfl, rfl⟩

/-- A fetch's fault is the step's fault. -/
theorem faultsWith_of_fetch {s : State} (hr : s.status = .running) {f : Fault}
    (h : fetchDecode s = .error f) : FaultsWith s f :=
  ⟨_, step_faulted hr h, rfl, rfl, rfl⟩

/-- How an instruction leaves the status: HLT halts, CALL without a return address faults, every other
instruction keeps it. -/
theorem exec_status {i : Instr} {s t : State} (h : exec i s = .next t) :
    t.status = (if i = .hlt then .halted else s.status) ∨
      ∃ r, i = .call r ∧ ¬ s.pc + 2 < 256 ∧
        t = s.setStatus (.faulted (.outOfBounds ↑(s.pc + 2))) := by
  cases i with
  | hlt => rw [execHlt_eq] at h; cases h; exact .inl rfl
  | ret => rw [execRet_eq] at h; cases h; exact .inl rfl
  | push r => rw [execPush_eq] at h; cases h; exact .inl rfl
  | pop r => rw [execPop_eq] at h; cases h; exact .inl rfl
  | prn r => rw [execPrn_eq] at h; cases h; exact .inl rfl
  | call r =>
    by_cases hc : s.pc + 2 < 256
    · rw [execCall_fits r s hc] at h; cases h; exact .inl rfl
    · rw [execCall_fails r s hc] at h; cases h; exact .inr ⟨r, rfl, hc, rfl⟩
  | jmp r => rw [execJmp_eq] at h; cases h; exact .inl rfl
  | jeq r => rw [execJeq_eq] at h; cases h; left; split <;> rfl
  | jne r => rw [execJne_eq] at h; cases h; left; split <;> rfl
  | ldi r imm => rw [execLdi_eq] at h; cases h; exact .inl rfl
  | mul ra rb => rw [execMul_eq] at h; cases h; exact .inl rfl
  | cmp ra rb => rw [execCmp_eq] at h; cases h; exact .inl rfl

/-- One more step of the host's run. -/
theorem core_run_next (M : Host.Core) {n : Nat} {s t : M.State} (h : M.step s = .next t) :
    M.run (n + 1) s = M.run n t := by
  simp [Host.Core.run, h]

end Sys2Proof.Machine
end

