-- ==== Sys2Proof/Laws/Fetch.lean ====
section
/-! SUPPORT. What fetching and decoding at pc answers, one lemma per instruction format
(spec/30_encoding.md R60, R70, R71), each a case analysis over where pc is and what the operand bytes hold. -/

namespace Sys2Proof.Machine

theorem fetchWindow_full {s : State} (h : s.pc + 2 < 256) :
    fetchWindow 3 s.pc s = [s.mem.get s.pc, s.mem.get (s.pc + 1), s.mem.get (s.pc + 2)] := by
  rcases fetchWindow_cases s with ⟨h', _⟩ | ⟨h', _⟩ | ⟨h', _⟩ | ⟨_, hw⟩
  · omega
  · omega
  · omega
  · exact hw

/-- The opcode fetch past the end of memory (R70). -/
theorem fetchDecode_pastEnd {s : State} (h : 255 < s.pc) :
    fetchDecode s = .error (.outOfBounds s.pc) := by
  rw [fetchDecode_of_error (e := .missingByte 0) (by rw [fetchWindow_outside 3 (by omega)]; rfl)]
  rfl

/-- An opcode byte that is none of the twelve (R69). -/
theorem fetchDecode_unrecognized {s : State} {b : Byte} (h : memRead s.pc s = .ok b)
    (hb : opOf? b = none) : fetchDecode s = .error (.unrecognizedOpcode b s.pc) := by
  obtain ⟨hpc, rfl⟩ := memRead_ok_iff.1 h
  rw [fetchDecode_of_error (e := .unrecognizedOpcode (s.mem.get s.pc))
    (by rw [fetchWindow_succ_inside 2 hpc]; exact decode_cons_unrecognized hb _)]
  rfl

section
variable {s : State} {o : Op} (h : memRead s.pc s = .ok (opcodeByte o))
include h

/-- An instruction of no operand. -/
theorem fetchDecode_noOperand {i : Instr} (hd : ∀ l, decodeOperands o l = .ok i) :
    fetchDecode s = .ok i := by
  obtain ⟨hpc, hg⟩ := memRead_ok_iff.1 h
  exact fetchDecode_of_ok (by rw [fetchWindow_succ_inside 2 hpc, hg, decode_cons_of_op rfl, hd])

/-- An instruction of one register operand. -/
theorem fetchDecode_oneRegister {mk : RegIndex → Instr}
    (hd : ∀ l, decodeOperands o l = decodeReg mk l) :
    (s.pc = 255 ∧ fetchDecode s = .error (.outOfBounds 256)) ∨
      (s.pc < 255 ∧ 7 < (s.mem.get (s.pc + 1)).toNat ∧
        fetchDecode s = .error (.invalidRegister (s.mem.get (s.pc + 1)))) ∨
      (s.pc < 255 ∧ ∃ r : RegIndex, (s.mem.get (s.pc + 1)).toNat = r.val ∧
        fetchDecode s = .ok (mk r)) := by
  obtain ⟨hpc, hg⟩ := memRead_ok_iff.1 h
  have hw := fetchWindow_succ_inside 2 hpc s
  by_cases h1 : s.pc + 1 < 256
  · rw [fetchWindow_succ_inside 1 h1, hg] at hw
    by_cases h7 : 7 < (s.mem.get (s.pc + 1)).toNat
    · refine .inr (.inl ⟨by omega, h7, ?_⟩)
      rw [fetchDecode_of_error (e := .invalidRegister (s.mem.get (s.pc + 1)))
        (by rw [hw, decode_cons_of_op rfl, hd]; simp [regOperand_high h7, Except.map])]
      rfl
    · have ha := regOperand_of_toNat (v := s.mem.get (s.pc + 1))
        (r := ⟨(s.mem.get (s.pc + 1)).toNat, by omega⟩) rfl
      exact .inr (.inr ⟨by omega, ⟨(s.mem.get (s.pc + 1)).toNat, by omega⟩, rfl, fetchDecode_of_ok
        (by rw [hw, decode_cons_of_op rfl, hd]; simp [ha, Except.map])⟩)
  · have e : s.pc = 255 := by omega
    rw [fetchWindow_outside 2 h1, hg] at hw
    refine .inl ⟨e, ?_⟩
    rw [fetchDecode_of_error (e := .missingByte 1) (by rw [hw, decode_cons_of_op rfl, hd]; rfl), e]
    rfl

/-- An instruction of two operand bytes that does not fit before the end of memory. -/
theorem fetchDecode_twoBytes_short (hd0 : decodeOperands o [] = .error (.missingByte 1))
    (hd1 : ∀ a, decodeOperands o [a] = .error (.missingByte 2)) (h2 : ¬ s.pc + 2 < 256) :
    fetchDecode s = .error (.outOfBounds 256) := by
  obtain ⟨hpc, hg⟩ := memRead_ok_iff.1 h
  have hw := fetchWindow_succ_inside 2 hpc s
  by_cases h1 : s.pc + 1 < 256
  · rw [fetchWindow_succ_inside 1 h1, fetchWindow_outside 1 (a := s.pc + 1 + 1) h2, hg] at hw
    have e : s.pc = 254 := by omega
    rw [fetchDecode_of_error (e := .missingByte 2) (by rw [hw, decode_cons_of_op rfl, hd1]), e]
    rfl
  · rw [fetchWindow_outside 2 h1, hg] at hw
    have e : s.pc = 255 := by omega
    rw [fetchDecode_of_error (e := .missingByte 1) (by rw [hw, decode_cons_of_op rfl, hd0]), e]
    rfl

/-- An instruction of two register operands. -/
theorem fetchDecode_twoRegisters {mk : RegIndex → RegIndex → Instr}
    (hd : ∀ l, decodeOperands o l = decodeRegReg mk l) :
    (254 ≤ s.pc ∧ s.pc ≤ 255 ∧ fetchDecode s = .error (.outOfBounds 256)) ∨
      (s.pc < 254 ∧ 7 < (s.mem.get (s.pc + 1)).toNat ∧
        fetchDecode s = .error (.invalidRegister (s.mem.get (s.pc + 1)))) ∨
      (s.pc < 254 ∧ (s.mem.get (s.pc + 1)).toNat ≤ 7 ∧ 7 < (s.mem.get (s.pc + 2)).toNat ∧
        fetchDecode s = .error (.invalidRegister (s.mem.get (s.pc + 2)))) ∨
      (s.pc < 254 ∧ ∃ ra rb : RegIndex, (s.mem.get (s.pc + 1)).toNat = ra.val ∧
        (s.mem.get (s.pc + 2)).toNat = rb.val ∧ fetchDecode s = .ok (mk ra rb)) := by
  obtain ⟨hpc, hg⟩ := memRead_ok_iff.1 h
  by_cases h2 : s.pc + 2 < 256
  · have hw := fetchWindow_full h2
    rw [hg] at hw
    by_cases h7 : 7 < (s.mem.get (s.pc + 1)).toNat
    · refine .inr (.inl ⟨by omega, h7, ?_⟩)
      rw [fetchDecode_of_error (e := .invalidRegister (s.mem.get (s.pc + 1)))
        (by rw [hw, decode_cons_of_op rfl, hd]; simp [regOperand_high h7, Except.bind])]
      rfl
    · have ha := regOperand_of_toNat (v := s.mem.get (s.pc + 1))
        (r := ⟨(s.mem.get (s.pc + 1)).toNat, by omega⟩) rfl
      by_cases h8 : 7 < (s.mem.get (s.pc + 2)).toNat
      · refine .inr (.inr (.inl ⟨by omega, by omega, h8, ?_⟩))
        rw [fetchDecode_of_error (e := .invalidRegister (s.mem.get (s.pc + 2)))
          (by rw [hw, decode_cons_of_op rfl, hd]
              simp [ha, regOperand_high h8, Except.bind, Except.map])]
        rfl
      · have hb := regOperand_of_toNat (v := s.mem.get (s.pc + 2))
          (r := ⟨(s.mem.get (s.pc + 2)).toNat, by omega⟩) rfl
        exact .inr (.inr (.inr ⟨by omega, ⟨(s.mem.get (s.pc + 1)).toNat, by omega⟩,
          ⟨(s.mem.get (s.pc + 2)).toNat, by omega⟩, rfl, rfl, fetchDecode_of_ok
          (by rw [hw, decode_cons_of_op rfl, hd]; simp [ha, hb, Except.bind, Except.map])⟩))
  · exact .inl ⟨by omega, by omega,
      fetchDecode_twoBytes_short h (by rw [hd]; rfl) (fun a => by rw [hd]; rfl) h2⟩

/-- An instruction of a register operand and an immediate. -/
theorem fetchDecode_registerAndImmediate {mk : RegIndex → Byte → Instr}
    (hd : ∀ l, decodeOperands o l = decodeRegImm mk l) :
    (254 ≤ s.pc ∧ s.pc ≤ 255 ∧ fetchDecode s = .error (.outOfBounds 256)) ∨
      (s.pc < 254 ∧ 7 < (s.mem.get (s.pc + 1)).toNat ∧
        fetchDecode s = .error (.invalidRegister (s.mem.get (s.pc + 1)))) ∨
      (s.pc < 254 ∧ ∃ r : RegIndex, (s.mem.get (s.pc + 1)).toNat = r.val ∧
        fetchDecode s = .ok (mk r (s.mem.get (s.pc + 2)))) := by
  obtain ⟨hpc, hg⟩ := memRead_ok_iff.1 h
  by_cases h2 : s.pc + 2 < 256
  · have hw := fetchWindow_full h2
    rw [hg] at hw
    by_cases h7 : 7 < (s.mem.get (s.pc + 1)).toNat
    · refine .inr (.inl ⟨by omega, h7, ?_⟩)
      rw [fetchDecode_of_error (e := .invalidRegister (s.mem.get (s.pc + 1)))
        (by rw [hw, decode_cons_of_op rfl, hd]; simp [regOperand_high h7, Except.map])]
      rfl
    · have ha := regOperand_of_toNat (v := s.mem.get (s.pc + 1))
        (r := ⟨(s.mem.get (s.pc + 1)).toNat, by omega⟩) rfl
      exact .inr (.inr ⟨by omega, ⟨(s.mem.get (s.pc + 1)).toNat, by omega⟩, rfl, fetchDecode_of_ok
        (by rw [hw, decode_cons_of_op rfl, hd]; simp [ha, Except.map])⟩)
  · exact .inl ⟨by omega, by omega,
      fetchDecode_twoBytes_short h (by rw [hd]; rfl) (fun a => by rw [hd]; rfl) h2⟩

end

end Sys2Proof.Machine
end

