-- ==== Sys2Proof/Laws/PerInstr.lean ====
section
/-! SUPPORT. Statements for all instructions, one lemma per constructor (the host joins them). -/

/-- The shape of an encoding (spec/30_encoding.md R60, R61): as many bytes as R60 gives the instruction, and
the AA field of the opcode byte is the number of operand bytes. -/
def Sys2Proof.Laws.EncodingShape.Statement (i : Sys2Proof.Instr) : Prop :=
  (Sys2Proof.encode i).length = i.length ∧
    Sys2Proof.aaField (Sys2Proof.opcodeByte i.op) = (Sys2Proof.operandBytes i).length

namespace Sys2Proof.Laws.EncodingShape

/-- The AA field of an opcode byte is its operation's operand count. -/
theorem aaField_opcodeByte (o : Op) : aaField (opcodeByte o) = operandCount o := by
  cases o <;> decide

theorem hlt : Statement .hlt := ⟨rfl, aaField_opcodeByte .hlt⟩
theorem ret : Statement .ret := ⟨rfl, aaField_opcodeByte .ret⟩
theorem push (r : RegIndex) : Statement (.push r) := ⟨rfl, aaField_opcodeByte .push⟩
theorem pop (r : RegIndex) : Statement (.pop r) := ⟨rfl, aaField_opcodeByte .pop⟩
theorem prn (r : RegIndex) : Statement (.prn r) := ⟨rfl, aaField_opcodeByte .prn⟩
theorem call (r : RegIndex) : Statement (.call r) := ⟨rfl, aaField_opcodeByte .call⟩
theorem jmp (r : RegIndex) : Statement (.jmp r) := ⟨rfl, aaField_opcodeByte .jmp⟩
theorem jeq (r : RegIndex) : Statement (.jeq r) := ⟨rfl, aaField_opcodeByte .jeq⟩
theorem jne (r : RegIndex) : Statement (.jne r) := ⟨rfl, aaField_opcodeByte .jne⟩
theorem ldi (r : RegIndex) (imm : Byte) : Statement (.ldi r imm) := ⟨rfl, aaField_opcodeByte .ldi⟩
theorem mul (ra rb : RegIndex) : Statement (.mul ra rb) := ⟨rfl, aaField_opcodeByte .mul⟩
theorem cmp (ra rb : RegIndex) : Statement (.cmp ra rb) := ⟨rfl, aaField_opcodeByte .cmp⟩

end Sys2Proof.Laws.EncodingShape
end

