-- ==== Sys2Proof/Tests/Slice0.lean ====
section
/-! SUPPORT. The model's own tests: the well-formedness checks, the decoding of words written out from the
spec's encodings, at most two vectors of spec/95_test_vectors.md per instruction, the host's interface,
and for each statement with hypotheses a state and operands that meet them. Expected results are the
spec's (the vector is named), never the model's own answer. -/

namespace Sys2Proof.Tests

open Sys2Proof.Machine

/-- The reset state with `bytes` at `pc`, and pc there. -/
def placed (pc : Nat) (bytes : List Byte) : State :=
  (State.reset.setMem (Memory.setBytes [] pc bytes)).setPc pc

/-! ### Well-formedness: an ill-formed term for each check, which the check refuses -/

theorem test_bytesFit_refuses_ldi_at_254 : (Instr.ldi 0 8).bytesFit 254 = false := by decide
theorem test_bytesFit_allows_ldi_at_253 : (Instr.ldi 0 8).bytesFit 253 = true := by decide
theorem test_bytesFit_refuses_hlt_at_256 : Instr.hlt.bytesFit 256 = false := by decide
theorem test_returnFits_refuses_call_at_254 : (Instr.call 1).returnFits 254 = false := by decide
theorem test_wellFormedAt_refuses_call_at_254 : (Instr.call 1).wellFormedAt 254 = false := by decide
theorem test_wellFormedAt_allows_push_at_254 : (Instr.push 1).wellFormedAt 254 = true := by decide

/-! ### Decoding: every constructor's word, bit by bit from R64 -/

theorem test_decode_hlt : decode [0b00000001] = .ok .hlt := by decide
theorem test_decode_ret : decode [0b00010001] = .ok .ret := by decide
theorem test_decode_push : decode [0b01000101, 0b00000011] = .ok (.push 3) := by decide
theorem test_decode_pop : decode [0b01000110, 0b00000101] = .ok (.pop 5) := by decide
theorem test_decode_prn : decode [0b01000111, 0b00000111] = .ok (.prn 7) := by decide
theorem test_decode_call : decode [0b01010000, 0b00000001] = .ok (.call 1) := by decide
theorem test_decode_jmp : decode [0b01010100, 0b00000010] = .ok (.jmp 2) := by decide
theorem test_decode_jeq : decode [0b01010101, 0b00000110] = .ok (.jeq 6) := by decide
theorem test_decode_jne : decode [0b01010110, 0b00000100] = .ok (.jne 4) := by decide
theorem test_decode_ldi : decode [0b10000010, 0b00000001, 0b11110000] = .ok (.ldi 1 0xF0) := by decide
theorem test_decode_mul : decode [0b10100010, 0b00000010, 0b00000101] = .ok (.mul 2 5) := by decide
theorem test_decode_cmp : decode [0b10100111, 0b00000110, 0b00000001] = .ok (.cmp 6 1) := by decide

/-- Rejections by name, in the order of R71: a missing second byte comes before a bad first index. -/
theorem test_decode_rejects :
    decode [] = .error (.missingByte 0) ∧ decode [0x00] = .error (.unrecognizedOpcode 0x00) ∧
    decode [0x45] = .error (.missingByte 1) ∧ decode [0xA2, 9] = .error (.missingByte 2) ∧
    decode [0xA2, 10, 9] = .error (.invalidRegister 10) ∧
    decode [0xA2, 0, 9] = .error (.invalidRegister 9) ∧
    decode [0x82, 0, 0xFF] = .ok (.ldi 0 0xFF) := by decide

theorem test_encode : encode (.mul 2 5) = [0xA2, 2, 5] ∧ encode .ret = [0x11] := by decide

theorem test_decodeTableWord : decodeTableWord 24 0x080082 = some (.ldi 0 8) ∧
    decodeTableWord 8 0x01 = some .hlt ∧ decodeTableWord 8 0xA0 = none := by decide

/-- The host's placing of a word: the next step runs that instruction. -/
theorem test_withFetchWord_runs :
    (hostStep (State.reset.withFetchWord 24 0x080082)).reg 0 = 8 ∧
    (hostStep (State.reset.withFetchWord 8 0x01)).status = .halted := by decide

/-! ### One step: vectors of 95_test_vectors.md -/

theorem test_V2_ldi_r7 : (hostStep (placed 0 [0x82, 7, 0x10])).reg 7 = 0x10 := by decide
theorem test_V5_ldi_at_253 : (hostStep (placed 253 [0x82, 0, 7])).pc = 256 := by decide
theorem test_V8_prn_r7 : (hostStep (placed 0 [0x47, 7])).out = [244] := by decide
theorem test_V9_prn_at_255 :
    (hostStep (placed 255 [0x47])).status = .faulted (.outOfBounds 256) := by decide
theorem test_V15_mul_square :
    (hostStep ((placed 0 [0xA2, 2, 2]).setReg 2 12)).reg 2 = 144 := by decide
theorem test_V18_mul_sp :
    (hostStep ((placed 0 [0xA2, 7, 1]).setReg 1 2)).reg 7 = 0xE8 := by decide
theorem test_V25_cmp_unsigned :
    (hostStep (((placed 0 [0xA7, 0, 1]).setReg 0 0x80).setReg 1 0x7F)).FL = 0x02 := by decide
theorem test_V27_cmp_same :
    (hostStep (((placed 0 [0xA7, 4, 4]).setReg 4 77).setFL 0x04)).FL = 0x01 := by decide
theorem test_V30_push_r7 :
    memRead 0xF3 (hostStep (placed 0 [0x45, 7])) = .ok 0xF3 := by decide
theorem test_V31_push_wraps :
    memRead 0xFF (hostStep (((placed 0 [0x45, 0]).setReg 7 0).setReg 0 5)) = .ok 5 := by decide
theorem test_V33_pop_r7 : (hostStep ((placed 0 [0x46, 7]).setReg 7 0xF3)).reg 7 = 1 := by decide
theorem test_V35_pop_empty : (hostStep (placed 0 [0x46, 2])).reg 7 = 0xF5 := by decide
theorem test_V38_call :
    (hostStep ((placed 6 [0x50, 1]).setReg 1 10)).pc = 10 ∧
    memRead 0xF3 (hostStep ((placed 6 [0x50, 1]).setReg 1 10)) = .ok 8 := by decide
theorem test_V39_call_r7 : (hostStep (placed 0 [0x50, 7])).pc = 0xF3 := by decide
theorem test_V43_ret :
    (hostStep (((placed 0 [0x11]).setReg 7 0xFF).setMem [(0, 0x11), (0xFF, 0x20)])).pc = 0x20 ∧
    (hostStep (((placed 0 [0x11]).setReg 7 0xFF).setMem [(0, 0x11), (0xFF, 0x20)])).reg 7 = 0 := by
  decide
theorem test_V46_jmp : (hostStep ((placed 0 [0x54, 2]).setReg 2 255)).pc = 255 := by decide
theorem test_V47_jeq_taken :
    (hostStep (((placed 0 [0x55, 2]).setReg 2 17).setFL 0x01)).pc = 17 := by decide
theorem test_V48_jeq_not_taken : (hostStep ((placed 12 [0x55, 2]).setFL 0x02)).pc = 14 := by decide
theorem test_V51_jne_taken : (hostStep ((placed 0 [0x56, 3]).setReg 3 40)).pc = 40 := by decide
theorem test_V54_jne_checked_untaken :
    (hostStep ((placed 0 [0x56, 9]).setFL 0x01)).status = .faulted (.invalidRegister 9) := by decide
theorem test_V56_hlt :
    (hostStep (placed 11 [0x01])).status = .halted ∧ (hostStep (placed 11 [0x01])).pc = 12 := by decide
theorem test_V58_unrecognized :
    (hostStep (placed 3 [0xA0, 0, 0])).status = .faulted (.unrecognizedOpcode 0xA0 3) := by decide
theorem test_V62_halted_step : hostStep ((placed 0 [0x47, 0]).setStatus .halted) =
    (placed 0 [0x47, 0]).setStatus .halted := by decide

/-! ### The host's interface -/

theorem test_render : renderValue 72 = "72\n" ∧ renderValue 0 = "0\n" ∧ renderValue 255 = "255\n" := by
  decide
theorem test_trace_at_255 : (placed 255 [0x47]).trace.bytes = [0x47] := by decide
theorem test_load_refused_after_a_step :
    (Session.fresh.apply .step).bind (Session.apply (.load [0x01])) = none := by decide
theorem test_memory_zero_is_unlisted : Memory.set [(3, 7)] 3 0 = [] ∧
    Memory.set [(3, 7)] 1 5 = [(1, 5), (3, 7)] := by decide
theorem test_reset_memory_wf : State.reset.mem.wf = true := by decide

/-! ### Witnesses: for each statement with hypotheses, a state and operands that meet them -/

theorem test_witness_StepRunsTheInstructionAtPc :
    (placed 253 [0x82, 7, 1]).status = .running ∧
    BytesAtPc (placed 253 [0x82, 7, 1]) (encode (.ldi 7 1)) := by
  unfold BytesAtPc; decide

theorem test_witness_StepHasOneOfThreeOutcomes :
    (placed 255 [0x01]).status = .running ∧ (hostStep (placed 255 [0x01])).status = .halted ∧
    (hostStep (placed 255 [0x01])).status ≠ .running := by decide

/-- One state for each place of the order of R179, at the boundary of its range, and one for none. -/
theorem test_witness_FirstApplicableFaultIsRaised :
    firstFault (placed 256 []) = some (.outOfBounds 256) ∧
    firstFault (placed 255 [0x00]) = some (.unrecognizedOpcode 0x00 255) ∧
    firstFault (placed 255 [0xA2]) = some (.outOfBounds 256) ∧
    firstFault (placed 254 [0xA2, 9]) = some (.outOfBounds 256) ∧
    firstFault (placed 253 [0xA2, 10, 9]) = some (.invalidRegister 10) ∧
    firstFault (placed 253 [0xA2, 7, 8]) = some (.invalidRegister 8) ∧
    firstFault (placed 254 [0x50, 7]) = some (.outOfBounds 256) ∧
    firstFault (placed 253 [0x50, 7]) = none := by decide

theorem test_witness_StepCompletesExactlyOnWellFormedInstructions :
    (placed 254 [0x45, 7]).status = .running ∧
    BytesAtPc (placed 254 [0x45, 7]) (encode (.push 7)) ∧
    (Instr.push 7).wellFormedAt (placed 254 [0x45, 7]).pc = true ∧
    (hostStep (placed 254 [0x45, 7])).status = .running := by
  unfold BytesAtPc; decide

theorem test_witness_NextPcIsAsTabled :
    (placed 254 [0x50, 1]).status = .running ∧
    (hostStep (placed 254 [0x50, 1])).status = .faulted (.outOfBounds 256) ∧
    (hostStep (placed 253 [0x50, 1])).status = .running := by decide

theorem test_witness_UntakenInstructionsAdvanceByTheirOperandCount :
    transferMark (Instr.mul 7 7).op = .never ∧
    (transferMark (Instr.jeq 7).op = .whenEqual ∧ (State.reset.setFL 0x02).flagE = false) ∧
    (transferMark (Instr.jne 7).op = .whenNotEqual ∧ (State.reset.setFL 0x01).flagE = true) := by decide

/-- For the statements of PRN, PUSH, POP, CALL, JMP, JEQ and JNE: the three clauses of the operand check. -/
theorem test_witness_ChecksOneRegister :
    ∀ op ∈ [(0x45 : Byte), 0x46, 0x47, 0x50, 0x54, 0x55, 0x56],
      memRead 255 (placed 255 [op]) = .ok op ∧
      (memRead 254 (placed 254 [op, 8]) = .ok op ∧ memRead 255 (placed 254 [op, 8]) = .ok 8 ∧
        7 < (8 : Byte).toNat) ∧
      memRead 255 (placed 254 [op, 7]) = .ok 7 ∧ (7 : Byte).toNat = (7 : RegIndex).val := by decide

/-- For the statements of LDI, MUL and CMP: the clauses of the operand checks. -/
theorem test_witness_ChecksTwoOperands :
    ∀ op ∈ [(0x82 : Byte), 0xA2, 0xA7],
      memRead 255 (placed 255 [op]) = .ok op ∧ memRead 254 (placed 254 [op, 9]) = .ok op ∧
      (memRead 254 (placed 253 [op, 8, 0]) = .ok 8 ∧ memRead 255 (placed 253 [op, 8, 0]) = .ok 0) ∧
      (memRead 254 (placed 253 [op, 7, 8]) = .ok 7 ∧ memRead 255 (placed 253 [op, 7, 8]) = .ok 8) ∧
      (memRead 254 (placed 253 [op, 7, 0]) = .ok 7 ∧ (7 : Byte).toNat = (7 : RegIndex).val) := by decide

theorem test_witness_FetchPastEndFaults :
    (placed 256 []).status = .running ∧ 255 < (placed 256 []).pc := by decide

theorem test_witness_LdiThenPrnAppendsTheImmediate :
    (placed 251 [0x82, 7, 9, 0x47, 7]).status = .running ∧
    BytesAtPc (placed 251 [0x82, 7, 9, 0x47, 7]) [0x82, BitVec.ofNat 8 7, 9, 0x47, BitVec.ofNat 8 7] := by
  unfold BytesAtPc; decide

/-- CMP's three clauses: equal registers, R7 = 0xF4 above R0 = 0, and R0 below it. -/
theorem test_witness_CmpFollowsItsRule :
    (State.reset.reg 0).toNat = (State.reset.reg 1).toNat ∧
    (State.reset.reg 7).toNat > (State.reset.reg 0).toNat ∧
    (State.reset.reg 0).toNat < (State.reset.reg 7).toNat := by decide

theorem test_witness_FlagsAreWrittenByCmpAndReadByJumpsOnly :
    exec (.prn 7) State.reset = .next ((State.reset.emit 0xF4).setPc 2) ∧
    ((State.reset.emit 0xF4).setPc 2).status = .running ∧
    (0x04 : Byte).getLsbD 0 = (State.reset.setFL 0x02).FL.getLsbD 0 :=
  ⟨rfl, rfl, rfl⟩

theorem test_witness_PushThenPopCopies :
    (6 : RegIndex) ≠ 7 ∧ (5 : RegIndex) ≠ 7 ∧ (6 : RegIndex) ≠ 5 := by decide

theorem test_witness_StackWrapsOrFaultsByParameter :
    (State.reset.setReg 7 0).reg 7 = 0 ∧ (State.reset.setReg 7 255).reg 7 = 255 ∧
    ((State.reset.setReg 7 0).setPc 253).pc + 2 < 256 := by decide

theorem test_witness_CallFollowsItsRule :
    (placed 253 [0x50, 1]).pc + 2 ≤ 255 ∧ 255 < (placed 254 [0x50, 1]).pc + 2 := by decide

/-- RET at 1 with SP at 0xF4, where memory is 0, the byte at the target 0 being none of the opcodes. -/
theorem test_witness_RetFollowsItsRule :
    (placed 1 [0x11]).status = .running ∧ memRead 1 (placed 1 [0x11]) = .ok 0x11 ∧
    (hostStep (placed 1 [0x11])).pc = 0 ∧ memRead 0 (hostStep (placed 1 [0x11])) = .ok 0 ∧
    (0 : Byte) ∉ opcodeBytes := by decide

theorem test_witness_JmpFollowsItsRule :
    ((placed 255 [0x54]).setReg 2 255 |>.reg 2).toNat = (placed 255 [0x54]).pc := by decide

/-- A RET right at the CALL's next state: the stack pointer and the pushed byte are as the CALL left them. -/
theorem test_witness_RetReturnsBehindItsCall :
    (placed 253 [0x50, 1]).pc ≤ 253 ∧ (hostStep (placed 253 [0x50, 1])).reg 7 = 0xF3 ∧
    memRead 0xF3 (hostStep (placed 253 [0x50, 1])) = .ok 255 := by decide

theorem test_witness_HltFollowsItsRule :
    (placed 255 [0x01]).status = .running ∧ memRead 255 (placed 255 [0x01]) = .ok 0x01 ∧
    (Session.fresh.apply (.load [0x01])).bind (Session.apply .step) =
      some { machine := hostStep (placed 0 [0x01]), started := true } ∧
    (hostStep (placed 0 [0x01])).status = .halted ∧ Command.run 3 ≠ .reset := by decide

theorem test_witness_UnrecognizedOpcodeStopsAndChangesNothing :
    (placed 255 [0xA0]).status = .running ∧ memRead 255 (placed 255 [0xA0]) = .ok 0xA0 ∧
    (0xA0 : Byte) ∉ opcodeBytes ∧ memRead 255 (placed 255 [0xA7]) = .ok 0xA7 ∧
    (0xA7 : Byte) ∈ opcodeBytes := by decide

/-- Each of the four cases of R172, and the pc bound met at its end. -/
theorem test_witness_OutOfBoundsIsRaisedExactlyAtTheEndOfMemory :
    (placed 256 []).pc ≤ 256 ∧ (placed 256 []).status = .running ∧
    (placed 255 [0x45]).mem.get 255 ∈ bytesWithFirst ∧
    (placed 254 [0x82, 9]).mem.get 254 ∈ bytesWithSecond ∧
    (placed 254 [0x50, 7]).mem.get 254 = 0x50 ∧ ((placed 254 [0x50, 7]).mem.get 255).toNat ≤ 7 := by
  decide

theorem test_witness_InvalidRegisterIsRaisedAtDecode :
    (memRead 254 (placed 254 [0x45, 8]) = .ok 0x45 ∧ memRead 255 (placed 254 [0x45, 8]) = .ok 8 ∧
      (0x45 : Byte) ∈ bytesWithFirst ∧ (0x45 : Byte) ∉ bytesWithSecond) ∧
    (memRead 254 (placed 253 [0xA2, 7, 8]) = .ok 7 ∧ memRead 255 (placed 253 [0xA2, 7, 8]) = .ok 8 ∧
      (0xA2 : Byte) ∈ bytesWithSecond) ∧
    (memRead 255 (placed 253 [0x82, 7, 255]) = .ok 255 ∧ (0x82 : Byte) ∈ bytesWithSecond) := by decide

theorem test_witness_AFaultStopsAtItsInstructionForGood :
    (placed 256 []).status = .running ∧
    (hostStep (placed 256 [])).status = .faulted (.outOfBounds 256) := by decide

theorem test_witness_OnlyAResetRunsAStoppedMachineAgain :
    State.status { State.reset with status := .halted } ≠ .running ∧
    Session.apply .step { machine := { State.reset with status := .halted }, started := true } =
      some { machine := { State.reset with status := .halted }, started := true } := by decide

theorem test_witness_LoadedResetStateIsAsSpecified :
    (List.replicate 256 (1 : Byte)).length ≤ 256 ∧ 256 < (List.replicate 257 (1 : Byte)).length :=
  ⟨by rw [List.length_replicate], by rw [List.length_replicate]; decide⟩

theorem test_witness_UnsupportedOperationIsNeverRaisedByAStep :
    (placed 0 [0xA2, 1, 2]).status = .running ∧
    step (placed 0 [0xA2, 1, 2]) = .next ((placed 0 [0xA2, 1, 2]).setPc 3) := ⟨rfl, rfl⟩

theorem test_witness_MemoryPortReadsTheLastWrite : 255 ≤ 255 ∧ 255 < 256 := by decide

/-- For the statements of the host's step and of bounded runs: a running and a stopped state. -/
theorem test_witness_HostStepStepsOnlyARunningMachine :
    State.reset.status = .running ∧ (State.reset.setStatus .halted).status ≠ .running := by decide

theorem test_witness_OnlyPushAndCallWriteMemory :
    (placed 0 [0x46, 1]).status = .running ∧ (hostStep (placed 0 [0x46, 1])).status = .running ∧
    memRead 0 (placed 0 [0x46, 1]) ≠ .ok 0x45 ∧ memRead 0 (placed 0 [0x46, 1]) ≠ .ok 0x50 := by decide

theorem test_witness_APushedByteIsFetchedAtOnce :
    let s := ((placed 0 [0x45, 0]).setReg 0 0x01).setReg 7 3
    s.status = .running ∧ BytesAtPc s [0x45, BitVec.ofNat 8 0] ∧ s.reg 0 = 0x01 ∧
      (s.reg 7 - 1).toNat = s.pc + 2 := by
  unfold BytesAtPc; decide

theorem test_witness_OutputGrowsOnlyByPrn :
    step (placed 254 [0x47, 7]) = .next (((placed 254 [0x47, 7]).emit 0xF4).setPc 256) := rfl

/-- The invariant's hypothesis and the step's: a state with the invariant, at the pc bound, that steps. -/
theorem test_witness_StepKeepsTheInvariant :
    (placed 254 [0x47, 7]).Inv ∧
    step (placed 254 [0x47, 7]) = .next (((placed 254 [0x47, 7]).emit 0xF4).setPc 256) :=
  ⟨⟨by decide, .inl rfl, by decide, fun _ h => by cases h⟩, rfl⟩

/-- A reachable running state, and a loaded one. -/
theorem test_witness_RunningPcIsAtMost256 :
    State.reset.load [0x47, 7] = some (placed 0 [0x47, 7]) ∧ Reachable (placed 0 [0x47, 7]) ∧
    (placed 0 [0x47, 7]).status = .running :=
  ⟨rfl, .loaded [0x47, 7] _ rfl, rfl⟩

theorem test_witness_HostMovesAreAsTabled :
    Session.fresh.apply (.load [0x01]) = some { machine := placed 0 [0x01], started := false } := by
  decide

end Sys2Proof.Tests
end

/-! # The family 10_state.md: flags, reset and load, output, pc bound (O16, O35, O39, O42, O43)

Every statement is derived from two inversions: `exec_eq_after`, what an instruction leaves behind, and
`step_next_cases`, what a step can do. -/

/-! ### What the decoder read (30_encoding.md R60, R71) -/

namespace Sys2Proof

theorem decodeReg_ok {mk : RegIndex → Instr} {operands : List Byte} {i : Instr}
    (h : decodeReg mk operands = .ok i) : ∃ r rest, operands = regByte r :: rest ∧ i = mk r := by
  match operands with
  | [] => cases h
  | a :: rest =>
    rw [decodeReg_cons] at h
    cases ha : regOperand a with
    | error e => rw [ha] at h; cases h
    | ok r => rw [ha] at h; cases h; exact ⟨r, rest, by rw [regOperand_ok_iff.1 ha], rfl⟩

theorem decodeRegReg_ok {mk : RegIndex → RegIndex → Instr} {operands : List Byte} {i : Instr}
    (h : decodeRegReg mk operands = .ok i) :
    ∃ ra rb rest, operands = regByte ra :: regByte rb :: rest ∧ i = mk ra rb := by
  match operands with
  | [] => cases h
  | [_] => cases h
  | a :: b :: rest =>
    rw [decodeRegReg_cons] at h
    cases ha : regOperand a with
    | error e => rw [ha] at h; cases h
    | ok ra =>
      cases hb : regOperand b with
      | error e => rw [ha, hb] at h; cases h
      | ok rb =>
        rw [ha, hb] at h; cases h
        exact ⟨ra, rb, rest, by rw [regOperand_ok_iff.1 ha, regOperand_ok_iff.1 hb], rfl⟩

theorem decodeRegImm_ok {mk : RegIndex → Byte → Instr} {operands : List Byte} {i : Instr}
    (h : decodeRegImm mk operands = .ok i) :
    ∃ r imm rest, operands = regByte r :: imm :: rest ∧ i = mk r imm := by
  match operands with
  | [] => cases h
  | [_] => cases h
  | a :: b :: rest =>
    rw [decodeRegImm_cons] at h
    cases ha : regOperand a with
    | error e => rw [ha] at h; cases h
    | ok r => rw [ha] at h; cases h; exact ⟨r, b, rest, by rw [regOperand_ok_iff.1 ha], rfl⟩

/-- Bytes that decode to an instruction begin with its encoding. -/
theorem eq_encode_append_of_decode {bytes : List Byte} {i : Instr} (h : decode bytes = .ok i) :
    ∃ rest, bytes = encode i ++ rest := by
  match bytes with
  | [] => cases h
  | b :: operands =>
    cases ho : opOf? b with
    | none => rw [decode_cons_unrecognized ho] at h; cases h
    | some o =>
      obtain rfl := opOf?_eq_some.1 ho
      rw [decode_cons_of_op rfl] at h
      cases o with
      | hlt | ret => cases h; exact ⟨operands, rfl⟩
      | push | pop | prn | call | jmp | jeq | jne =>
        obtain ⟨r, rest, rfl, rfl⟩ := decodeReg_ok h
        exact ⟨rest, rfl⟩
      | ldi =>
        obtain ⟨r, imm, rest, rfl, rfl⟩ := decodeRegImm_ok h
        exact ⟨rest, rfl⟩
      | mul | cmp =>
        obtain ⟨ra, rb, rest, rfl, rfl⟩ := decodeRegReg_ok h
        exact ⟨rest, rfl⟩

end Sys2Proof

namespace Sys2Proof.Machine

/-! ### The instruction that stands at pc -/

theorem memRead_of_fetchWindow {n a k : Nat} {s : State} {b : Byte}
    (h : (fetchWindow n a s)[k]? = some b) : memRead (a + k) s = .ok b := by
  induction n generalizing a k with
  | zero => cases h
  | succ n ih =>
    by_cases ha : a < 256
    · rw [fetchWindow_succ_inside n ha] at h
      cases k with
      | zero => rw [Nat.add_zero, memRead_inside ha]; cases h; rfl
      | succ k => rw [Nat.add_comm k, ← Nat.add_assoc]; exact ih h
    · rw [fetchWindow_outside _ ha] at h; cases h

/-- What a fetch decodes stands at pc, byte for byte. -/
theorem bytesAtPc_of_fetchDecode {s : State} {i : Instr} (h : fetchDecode s = .ok i) :
    BytesAtPc s (encode i) := by
  intro k hk
  cases hd : decode (fetchWindow 3 s.pc s) with
  | error e => rw [fetchDecode_of_error hd] at h; cases h
  | ok j =>
    rw [fetchDecode_of_ok hd] at h; cases h
    obtain ⟨rest, hw⟩ := eq_encode_append_of_decode hd
    exact memRead_of_fetchWindow (by
      rw [hw, List.getElem?_append_left hk, List.getElem?_eq_getElem hk])

/-- An instruction that stands at pc ends inside memory. -/
theorem pc_add_length_le {s : State} {i : Instr} (h : BytesAtPc s (encode i)) :
    s.pc + i.length ≤ 256 := by
  have hpos := length_pos i
  obtain ⟨hlast, -⟩ := memRead_ok_iff.1 (h (i.length - 1) (by rw [length_encode]; omega))
  omega

/-! ### What an instruction leaves behind -/

/-- The state after instruction `i` in state `s`: the equations of Laws/Exec.lean as one function. -/
def State.after (s : State) : Instr → State
  | .hlt => (s.advance .hlt).setStatus .halted
  | .ret => (s.jumpTo (s.mem.get s.sp.toNat)).shrinkStack
  | .push r => (s.pushed (if r = 7 then s.sp - 1 else s.reg r)).advance .push
  | .pop r => (s.setReg r (s.mem.get s.sp.toNat)).shrinkStack.advance .pop
  | .prn r => (s.emit (s.reg r)).advance .prn
  | .call r =>
    if s.pc + 2 < 256 then
      (s.pushed (BitVec.ofNat 8 (s.pc + 2))).jumpTo (if r = 7 then s.sp - 1 else s.reg r)
    else s.setStatus (.faulted (.outOfBounds ↑(s.pc + 2)))
  | .jmp r => s.jumpTo (s.reg r)
  | .jeq r => if s.flagE then s.jumpTo (s.reg r) else s.advance .jeq
  | .jne r => if s.flagE then s.advance .jne else s.jumpTo (s.reg r)
  | .ldi r imm => (s.setReg r imm).advance .ldi
  | .mul ra rb =>
    (s.setReg ra (BitVec.ofNat 8 ((s.reg ra).toNat * (s.reg rb).toNat))).advance .mul
  | .cmp ra rb => (s.setFL (compareFlags (s.reg ra) (s.reg rb))).advance .cmp

theorem exec_eq_after (i : Instr) (s : State) : exec i s = .next (s.after i) := by
  cases i with
  | hlt => exact execHlt_eq s
  | ret => exact execRet_eq s
  | push r => exact execPush_eq r s
  | pop r => exact execPop_eq r s
  | prn r => exact execPrn_eq r s
  | call r =>
    by_cases hfits : s.pc + 2 < 256
    · rw [execCall_fits r s hfits, State.after, if_pos hfits]
    · rw [execCall_fails r s hfits, State.after, if_neg hfits]
  | jmp r => exact execJmp_eq r s
  | jeq r => exact execJeq_eq r s
  | jne r => exact execJne_eq r s
  | ldi r imm => exact execLdi_eq r imm s
  | mul ra rb => exact execMul_eq ra rb s
  | cmp ra rb => exact execCmp_eq ra rb s

theorem eq_after_of_exec {i : Instr} {s t : State} (h : exec i s = .next t) : t = s.after i := by
  rw [exec_eq_after] at h
  cases h
  rfl

theorem after_FL_of_ne_cmp {i : Instr} (s : State) (h : ∀ ra rb, i ≠ .cmp ra rb) :
    (s.after i).FL = s.FL := by
  cases i with
  | cmp ra rb => exact absurd rfl (h ra rb)
  | call r | jeq r | jne r => rw [State.after]; split <;> rfl
  | _ => rfl

theorem after_out_of_ne_prn {i : Instr} (s : State) (h : ∀ r, i ≠ .prn r) :
    (s.after i).out = s.out := by
  cases i with
  | prn r => exact absurd rfl (h r)
  | call r | jeq r | jne r => rw [State.after]; split <;> rfl
  | _ => rfl

/-- CMP overwrites the whole of FL: the old value is lost. -/
theorem after_cmp_setFL (ra rb : RegIndex) (s : State) (fl : Byte) :
    (s.setFL fl).after (.cmp ra rb) = s.after (.cmp ra rb) := rfl

/-- Every other instruction carries a changed FL along, and does nothing else differently, so long as the
conditional jumps find the same E. -/
theorem after_setFL {i : Instr} (s : State) (fl : Byte) (hcmp : ∀ ra rb, i ≠ .cmp ra rb)
    (hE : (∃ r, i = .jeq r ∨ i = .jne r) → (s.setFL fl).flagE = s.flagE) :
    (s.setFL fl).after i = (s.after i).setFL fl := by
  cases i with
  | cmp ra rb => exact absurd rfl (hcmp ra rb)
  | call r =>
    simp only [State.after]
    rw [State.setFL_pc]
    split <;> rfl
  | jeq r =>
    simp only [State.after]
    rw [hE ⟨r, .inl rfl⟩]
    split <;> rfl
  | jne r =>
    simp only [State.after]
    rw [hE ⟨r, .inr rfl⟩]
    split <;> rfl
  | _ => rfl

/-- An instruction that ends inside memory leaves pc at most one past the end: a transfer's target is a
byte, and every other instruction goes to its own end. -/
theorem after_pc_le {i : Instr} {s : State} (h : s.pc + i.length ≤ 256) : (s.after i).pc ≤ 256 := by
  have hend (o : Op) (ho : i.op = o) : s.pc + 1 + operandCount o ≤ 256 := by
    rw [← ho, Nat.add_assoc, ← length_eq_operandCount]; exact h
  have htarget (v : Byte) : v.toNat ≤ 256 := (byte_lt v).le
  cases i with
  | ret => exact htarget _
  | jmp r => exact htarget _
  | call r =>
    rw [State.after]
    split
    · exact htarget _
    · exact (Nat.le_add_right _ _).trans h
  | jeq r =>
    rw [State.after]
    split
    · exact htarget _
    · exact hend _ rfl
  | jne r =>
    rw [State.after]
    split
    · exact hend _ rfl
    · exact htarget _
  | _ => exact hend _ rfl

/-! ### What a step can do, from any state -/

/-- A step stays where it is, takes a fault, or runs the instruction that stands at pc. -/
theorem step_next_cases {s t : State} (h : step s = .next t) :
    t = s ∨ (∃ f, t = s.setStatus (.faulted f)) ∨
      (s.status = .running ∧ ∃ i, BytesAtPc s (encode i) ∧ t = s.after i) := by
  by_cases hr : s.status = .running
  · obtain ⟨i, hi, ht⟩ | ⟨f, -, rfl⟩ := step_cases hr h
    · exact .inr (.inr ⟨hr, i, bytesAtPc_of_fetchDecode hi, eq_after_of_exec ht⟩)
    · exact .inr (.inl ⟨f, rfl⟩)
  · rw [step_stopped hr] at h
    cases h
    exact .inl rfl

/-! ### The load and the reachable states (70_reset_and_hazards.md R205) -/

theorem load_of_length_le {bytes : List Byte} (h : bytes.length ≤ 256) (s : State) :
    s.load bytes = some (s.setMem (s.mem.setBytes 0 bytes)) :=
  if_pos h

theorem load_of_lt_length {bytes : List Byte} (h : 256 < bytes.length) (s : State) :
    s.load bytes = none :=
  if_neg (Nat.not_le.2 h)

/-- A load changes memory alone. -/
theorem eq_setMem_of_load {bytes : List Byte} {s t : State} (h : s.load bytes = some t) :
    t = s.setMem (s.mem.setBytes 0 bytes) := by
  by_cases hlen : bytes.length ≤ 256
  · rw [load_of_length_le hlen] at h; cases h; rfl
  · rw [load_of_lt_length (Nat.not_le.1 hlen)] at h; cases h

/-- What holds of every loaded state and is kept by every step holds of every reachable state. -/
theorem Reachable.invariant {P : State → Prop}
    (hload : ∀ m : Memory, P (State.reset.setMem m))
    (hstep : ∀ s t, P s → Machine.step s = .next t → P t) {s : State} (h : Reachable s) : P s := by
  induction h with
  | loaded bytes s hs => rw [eq_setMem_of_load hs]; exact hload _
  | step s t _ ht ih => exact hstep s t ih ht

theorem Reachable.hostStep {s : State} (h : Reachable s) : Reachable (hostStep s) := by
  obtain ⟨t, ht⟩ := step_next s
  have hhost : Machine.hostStep s = t := by rw [Machine.hostStep, ht]
  exact .step s _ h (hhost ▸ ht)

/-! ### The two invariants -/

/-- The pc bound is kept by every step (10_state.md R25). -/
theorem step_keeps_pc_le {s t : State} (hpc : s.pc ≤ 256) (h : step s = .next t) : t.pc ≤ 256 := by
  obtain rfl | ⟨f, rfl⟩ | ⟨-, i, hbytes, rfl⟩ := step_next_cases h
  · exact hpc
  · exact hpc
  · exact after_pc_le (pc_add_length_le hbytes)

theorem legalFlags_compareFlags (va vb : Byte) : legalFlags (compareFlags va vb) := by
  obtain ⟨-, h⟩ | ⟨-, h⟩ | ⟨-, h⟩ := compareFlags_cases va vb
  · exact .inr (.inl h)
  · exact .inr (.inr (.inl h))
  · exact .inr (.inr (.inr h))

theorem after_keeps_legalFlags {s : State} (hfl : legalFlags s.FL) (i : Instr) :
    legalFlags (s.after i).FL := by
  by_cases hcmp : ∃ ra rb, i = .cmp ra rb
  · obtain ⟨ra, rb, rfl⟩ := hcmp
    exact legalFlags_compareFlags _ _
  · rw [after_FL_of_ne_cmp s fun ra rb hi => hcmp ⟨ra, rb, hi⟩]
    exact hfl

/-- The four values of FL are kept by every step (10_state.md R28). -/
theorem step_keeps_legalFlags {s t : State} (hfl : legalFlags s.FL) (h : step s = .next t) :
    legalFlags t.FL := by
  obtain rfl | ⟨f, rfl⟩ | ⟨-, i, -, rfl⟩ := step_next_cases h
  · exact hfl
  · exact hfl
  · exact after_keeps_legalFlags hfl i

/-- The flags one step of a loaded program leaves are reached. -/
theorem exists_reachable_FL_of_one_step {bytes : List Byte} (hlen : bytes.length ≤ 256) {fl : Byte}
    (h : (hostStep (State.reset.setMem (Memory.setBytes [] 0 bytes))).FL = fl) :
    ∃ s, Reachable s ∧ s.FL = fl :=
  ⟨_, (Reachable.loaded bytes _ (load_of_length_le hlen _)).hostStep, h⟩

/-! ### The obligations -/

/-- Settles O16: FL passes through `State.after` untouched but for CMP, and only the jumps ask for E. -/
theorem flagsAreWrittenByCmpAndReadByJumpsOnly :
    Obligations.FlagsAreWrittenByCmpAndReadByJumpsOnly := by
  unfold Obligations.FlagsAreWrittenByCmpAndReadByJumpsOnly
  refine ⟨?keeps, ?cmp, ?others, ?jumps, rfl⟩
  case keeps =>
    intro i s t h _ hcmp
    rw [eq_after_of_exec h]
    exact after_FL_of_ne_cmp s hcmp
  case cmp =>
    intro ra rb s fl
    rw [exec_eq_after, exec_eq_after, after_cmp_setFL]
  case others =>
    intro i s t fl h _ hjeq hjne
    refine ⟨_, exec_eq_after i _, ?_⟩
    rw [eq_after_of_exec h]
    by_cases hcmp : ∃ ra rb, i = .cmp ra rb
    · obtain ⟨ra, rb, rfl⟩ := hcmp
      rw [after_cmp_setFL]
      exact ⟨rfl, rfl, rfl, rfl, rfl⟩
    · rw [after_setFL s fl (fun ra rb hi => hcmp ⟨ra, rb, hi⟩)
        fun ⟨r, hi⟩ => (hi.elim (hjeq r) (hjne r)).elim]
      exact ⟨rfl, rfl, rfl, rfl, rfl⟩
  case jumps =>
    intro r s fl hbit
    have hE : (s.setFL fl).flagE = s.flagE := by rw [flagE_eq, flagE_eq]; exact hbit
    refine ⟨⟨_, _, exec_eq_after _ _, exec_eq_after _ _, ?_⟩,
      ⟨_, _, exec_eq_after _ _, exec_eq_after _ _, ?_⟩⟩
    · rw [after_setFL s fl (by simp) fun _ => hE, State.setFL_pc]
    · rw [after_setFL s fl (by simp) fun _ => hE, State.setFL_pc]

/-- Settles O35: a load changes memory alone, and memory then reads the image, and zero past it. -/
theorem loadedResetStateIsAsSpecified : Obligations.LoadedResetStateIsAsSpecified := by
  unfold Obligations.LoadedResetStateIsAsSpecified
  intro bytes
  refine ⟨fun hlen => ⟨_, load_of_length_le hlen _, ?regs, rfl, rfl, rfl, rfl, rfl, ?image, ?rest⟩,
    fun hlen => load_of_lt_length hlen _⟩
  case regs =>
    intro r hr
    rw [State.setMem_reg, State.reset_reg, if_neg hr]
  case image =>
    intro a ha
    rw [memRead_inside (by omega), State.setMem_mem, Memory.get_setBytes, dif_pos ⟨a.zero_le, ha⟩]
    rfl
  case rest =>
    intro a hle ha
    rw [memRead_inside ha, State.setMem_mem, Memory.get_setBytes, dif_neg (by omega)]
    rfl

/-- Settles O39: only `State.after` of a PRN touches out, and a PRN that runs stands at pc. -/
theorem outputGrowsOnlyByPrn : Obligations.OutputGrowsOnlyByPrn := by
  unfold Obligations.OutputGrowsOnlyByPrn
  refine ⟨rfl, fun r s => ⟨_, execPrn_eq r s, rfl⟩, ?_⟩
  intro s t h
  obtain rfl | ⟨f, rfl⟩ | ⟨hr, i, hbytes, rfl⟩ := step_next_cases h
  · exact .inl rfl
  · exact .inl rfl
  · by_cases hprn : ∃ r, i = .prn r
    · obtain ⟨r, rfl⟩ := hprn
      exact .inr ⟨hr, hbytes 0 Nat.zero_lt_two, r, hbytes 1 Nat.one_lt_two, rfl⟩
    · exact .inl (after_out_of_ne_prn s fun r hi => hprn ⟨r, hi⟩)

/-- Settles O42, by the invariant `pc ≤ 256` of all reachable states. -/
theorem runningPcIsAtMost256 : Obligations.RunningPcIsAtMost256 := by
  unfold Obligations.RunningPcIsAtMost256
  intro s hs _
  exact hs.invariant (P := fun s => s.pc ≤ 256) (fun _ => Nat.zero_le 256) fun _ _ => step_keeps_pc_le

/-- Settles O43: no other value by the invariant `legalFlags`; each of the four is reached, 0x00 at reset
and the others by comparing R0 with R0, R7 = 0xF4 with R0 = 0, and R0 with R7. -/
theorem flagValuesAreExactlyFour : Obligations.FlagValuesAreExactlyFour := by
  unfold Obligations.FlagValuesAreExactlyFour
  intro v
  constructor
  · rintro ⟨s, hs, rfl⟩
    exact hs.invariant (P := fun s => legalFlags s.FL) (fun _ => .inl rfl)
      fun _ _ => step_keeps_legalFlags
  · rintro (rfl | rfl | rfl | rfl)
    · exact ⟨_, .loaded [] _ rfl, rfl⟩
    · exact exists_reachable_FL_of_one_step (bytes := [0xA7, 0, 0]) (by decide) (by decide)
    · exact exists_reachable_FL_of_one_step (bytes := [0xA7, 7, 0]) (by decide) (by decide)
    · exact exists_reachable_FL_of_one_step (bytes := [0xA7, 0, 7]) (by decide) (by decide)

end Sys2Proof.Machine

/-! # The family 20_memory.md: the memory port (O36)

Inside 0 to 255 a write answers `s.setMem (s.mem.set a v)`, whose frame is the frame of `State.setMem` and
whose bytes `memRead_setMem_set` reads back; outside, the port only faults. -/

namespace Sys2Proof.Machine

/-- A byte written inside the bound is the next one read there (20_memory.md R42). -/
theorem memRead_setMem_set_self {a : Nat} (h : a < 256) (v : Byte) (s : State) :
    memRead a (s.setMem (s.mem.set a v)) = .ok v := by
  rw [memRead_setMem_set s a a v h, if_pos rfl]

/-- A write leaves every other address as it was (20_memory.md R42). -/
theorem sameMemoryBut_setMem_set {a : Nat} (h : a < 256) (v : Byte) (s : State) :
    SameMemoryBut a s (s.setMem (s.mem.set a v)) := by
  intro b hb
  rw [memRead_setMem_set s a b v h, if_neg hb]

/-- Settles O36: inside the bound the write is `State.setMem` of one byte, outside it both accesses fault. -/
theorem memoryPortReadsTheLastWrite : Obligations.MemoryPortReadsTheLastWrite := by
  unfold Obligations.MemoryPortReadsTheLastWrite
  intro a v s
  constructor
  · intro hle
    have hin : a < 256 := Nat.lt_succ_of_le hle
    exact ⟨⟨_, memRead_inside hin s⟩, _, memWrite_inside hin v s, memRead_setMem_set_self hin v s,
      sameMemoryBut_setMem_set hin v s, State.setMem_x s _, State.setMem_pc s _, State.setMem_FL s _,
      State.setMem_status s _, State.setMem_out s _⟩
  · intro hlt
    have hout : ¬ a < 256 := Nat.not_lt.2 hlt
    exact ⟨memRead_outside hout s, memWrite_outside hout v s⟩

end Sys2Proof.Machine

/-! # The family 30_encoding.md: the next pc of every instruction (O8) and the opcode table (O1)

The only fault an instruction's meaning can take is CALL's missing return address (`exec_status`), and
taking it changes the status alone; everywhere else the next pc is the one `State.after` writes. -/

namespace Sys2Proof.Machine

/-- An instruction that faults leaves pc where it was (30_encoding.md R72). -/
theorem after_pc_of_faulted {i : Instr} {s : State} {f : Fault} (hr : s.status = .running)
    (hf : (s.after i).status = .faulted f) : (s.after i).pc = s.pc := by
  obtain hkept | ⟨r, -, -, ht⟩ := exec_status (exec_eq_after i s)
  · rw [hf, hr] at hkept
    split at hkept <;> cases hkept
  · rw [ht, State.setStatus_pc]

/-- A step that faults leaves pc where it was (30_encoding.md R72). -/
theorem step_pc_of_faulted {s t : State} {f : Fault} (hr : s.status = .running)
    (h : step s = .next t) (hf : t.status = .faulted f) : t.pc = s.pc := by
  obtain rfl | ⟨g, rfl⟩ | ⟨-, i, -, rfl⟩ := step_next_cases h
  · rfl
  · rfl
  · exact after_pc_of_faulted hr hf

/-- CALL that takes no fault ends at its target, R7 being read after the decrement (43_control_transfer.md
R140). -/
theorem after_call_pc {r : RegIndex} {s : State}
    (hf : ∀ f, (s.after (.call r)).status ≠ .faulted f) :
    (s.after (.call r)).pc = (if r = 7 then s.reg 7 - 1 else s.reg r).toNat := by
  rw [State.after] at hf ⊢
  by_cases hfits : s.pc + 2 < 256
  · rw [if_pos hfits, State.jumpTo_pc, State.sp_eq]
  · exact absurd (congrArg State.status (if_neg hfits)) (hf _)

/-- RET ends at the byte the stack pointer points to (43_control_transfer.md R142). -/
theorem memRead_sp_eq_after_ret_pc (s : State) :
    memRead (s.reg 7).toNat s = .ok (BitVec.ofNat 8 (s.after .ret).pc) := by
  rw [memRead_inside (byte_lt _), State.after, State.shrinkStack_pc, State.jumpTo_pc,
    BitVec.ofNat_toNat, BitVec.setWidth_eq, State.sp_eq]

/-- JEQ is taken where bit 0 of FL is set (43_control_transfer.md R146). -/
theorem after_jeq_pc (r : RegIndex) (s : State) :
    (s.after (.jeq r)).pc = if s.FL.getLsbD 0 then (s.reg r).toNat else s.pc + 2 := by
  rw [State.after, ← flagE_eq]
  split <;> rfl

/-- JNE is taken where bit 0 of FL is clear (43_control_transfer.md R148). -/
theorem after_jne_pc (r : RegIndex) (s : State) :
    (s.after (.jne r)).pc = if s.FL.getLsbD 0 then s.pc + 2 else (s.reg r).toNat := by
  rw [State.after, ← flagE_eq]
  split <;> rfl

/-- Settles O8: a fault keeps pc, and the rows of the table are the targets and the increments of
`State.after`. -/
theorem nextPcIsAsTabled : Obligations.NextPcIsAsTabled := by
  unfold Obligations.NextPcIsAsTabled
  refine ⟨fun _ _ _ => step_pc_of_faulted, fun i s hr =>
    ⟨s.after i, exec_eq_after i s, fun ⟨_, hf⟩ => after_pc_of_faulted hr hf, fun hf => ?_⟩⟩
  cases i with
  | hlt => exact ⟨rfl, rfl⟩
  | ret => exact ⟨memRead_sp_eq_after_ret_pc s, byte_lt _⟩
  | call r => exact after_call_pc hf
  | jeq r => exact after_jeq_pc r s
  | jne r => exact after_jne_pc r s
  | push | pop | prn | jmp | ldi | mul | cmp => rfl

/-- Settles O1: the AA field of each row is its operand count, and the rest is the model's own table. -/
theorem opcodeTableIsAsSpecified : Obligations.OpcodeTableIsAsSpecified := by
  unfold Obligations.OpcodeTableIsAsSpecified
  simp only [Laws.EncodingShape.aaField_opcodeByte]
  rfl

end Sys2Proof.Machine

/-! # The family 40_register_io.md: LDI and PRN (O10, O11, O12)

The checks of a whole operand format are read off its inversion of the fetch in Laws/Fetch.lean, once for
all operations of that format; what LDI and PRN themselves do is one equation each, `execLdi_eq` and
`execPrn_eq`. That LDI then PRN prints the immediate is derived from the two rules alone (R104). -/

namespace Sys2Proof.Machine

/-! ### The checks of an operand format (30_encoding.md R71) -/

/-- An opcode fetch at pc above 255 faults at pc (30_encoding.md R70). -/
theorem fetchPastEndFaults : FetchPastEndFaults :=
  fun _ hr hpc => faultsWith_of_fetch hr (fetchDecode_pastEnd hpc)

/-- The checks of every operation of one register operand. -/
theorem checksOneRegister {o : Op} {mk : RegIndex → Instr}
    (hd : ∀ l, decodeOperands o l = decodeReg mk l) : ChecksOneRegister (opcodeByte o) mk := by
  intro s hr hop
  obtain ⟨hpc, hf⟩ | ⟨hpc, hhigh, hf⟩ | ⟨hpc, r, hreg, hf⟩ := fetchDecode_oneRegister hop hd
  · exact ⟨fun _ => faultsWith_of_fetch hr hf,
      fun a ha => absurd (memRead_ok_iff.1 ha).1 (by omega)⟩
  · refine ⟨fun h => absurd h hpc.ne, fun a ha => ?_⟩
    obtain ⟨-, rfl⟩ := memRead_ok_iff.1 ha
    exact ⟨fun _ => faultsWith_of_fetch hr hf, fun q hq => absurd q.isLt (by omega)⟩
  · refine ⟨fun h => absurd h hpc.ne, fun a ha => ?_⟩
    obtain ⟨-, rfl⟩ := memRead_ok_iff.1 ha
    refine ⟨fun h => absurd r.isLt (by omega), fun q hq => ?_⟩
    obtain rfl : r = q := Fin.ext (hreg.symm.trans hq)
    exact step_decoded hr hf

/-- The checks of every operation of a register operand and an immediate; the immediate has none (R100). -/
theorem checksRegisterAndImmediate {o : Op} {mk : RegIndex → Byte → Instr}
    (hd : ∀ l, decodeOperands o l = decodeRegImm mk l) :
    ChecksRegisterAndImmediate (opcodeByte o) mk := by
  intro s hr hop
  obtain ⟨hge, -, hf⟩ | ⟨hlt, hhigh, hf⟩ | ⟨hlt, r, hreg, hf⟩ :=
    fetchDecode_registerAndImmediate hop hd
  · exact ⟨fun _ => faultsWith_of_fetch hr hf, fun _ => faultsWith_of_fetch hr hf,
      fun a b _ hb => absurd (memRead_ok_iff.1 hb).1 (by omega)⟩
  · refine ⟨fun h => absurd h (by omega), fun h => absurd h hlt.ne, fun a b ha hb => ?_⟩
    obtain ⟨-, rfl⟩ := memRead_ok_iff.1 ha
    exact ⟨fun _ => faultsWith_of_fetch hr hf, fun q hq => absurd q.isLt (by omega)⟩
  · refine ⟨fun h => absurd h (by omega), fun h => absurd h hlt.ne, fun a b ha hb => ?_⟩
    obtain ⟨-, rfl⟩ := memRead_ok_iff.1 ha
    obtain ⟨-, rfl⟩ := memRead_ok_iff.1 hb
    refine ⟨fun h => absurd r.isLt (by omega), fun q hq => ?_⟩
    obtain rfl : r = q := Fin.ext (hreg.symm.trans hq)
    exact step_decoded hr hf

/-! ### The frame of a register write -/

/-- A write of one register leaves every other as it was (10_state.md R22). -/
theorem sameRegsBut_setReg (r : RegIndex) (v : Byte) (s : State) :
    SameRegsBut [r] s (s.setReg r v) :=
  fun _ hq => State.reg_setReg_ne s (List.ne_of_not_mem_cons hq) v

/-! ### The obligations -/

/-- Settles O10: LDI is one register write and the generic increment, and its checks are its format's. -/
theorem ldiFollowsItsRule : Obligations.LdiFollowsItsRule := by
  unfold Obligations.LdiFollowsItsRule
  refine ⟨?effect, checksRegisterAndImmediate (o := .ldi) fun _ => rfl, fetchPastEndFaults⟩
  case effect =>
    intro r imm s
    exact ⟨_, execLdi_eq r imm s, State.reg_setReg_self s r imm, sameRegsBut_setReg r imm s,
      rfl, rfl, rfl, rfl, fun _ => rfl⟩

/-- Settles O11: PRN is one `State.emit` and the generic increment, and its checks are its format's. -/
theorem prnFollowsItsRule : Obligations.PrnFollowsItsRule := by
  unfold Obligations.PrnFollowsItsRule
  refine ⟨?effect, checksOneRegister (o := .prn) fun _ => rfl⟩
  case effect =>
    intro r s
    exact ⟨_, execPrn_eq r s, rfl, fun _ _ => rfl, rfl, rfl, rfl, fun _ => rfl⟩

/-- Settles O12, from the rules of LDI and of PRN: LDI leaves the PRN behind it in memory and the immediate
in the register that PRN appends. -/
theorem ldiThenPrnAppendsTheImmediate : Obligations.LdiThenPrnAppendsTheImmediate := by
  unfold Obligations.LdiThenPrnAppendsTheImmediate
  intro r v s hr hbytes
  obtain ⟨ldiEffect, ldiChecks, -⟩ := ldiFollowsItsRule
  obtain ⟨prnEffect, prnChecks⟩ := prnFollowsItsRule
  obtain ⟨t, hexec, hreg, -, hpc, -, hout, hstatus, hmem⟩ := ldiEffect r v s
  obtain ⟨u, hexec', hout', -⟩ := prnEffect r t
  have hldi : step s = exec (.ldi r v) s := by
    obtain ⟨-, -, hoperands⟩ := ldiChecks s hr (hbytes 0 (by simp))
    exact (hoperands _ _ (hbytes 1 (by simp)) (hbytes 2 (by simp))).2 r (toNat_regByte r)
  have hopcode : memRead t.pc t = .ok 0x47 := by
    rw [hpc, hmem]; exact hbytes 3 (by simp)
  have hoperand : memRead (t.pc + 1) t = .ok (regByte r) := by
    rw [hpc, hmem]; exact hbytes 4 (by simp)
  have hprn : step t = exec (.prn r) t := by
    obtain ⟨-, hoperands⟩ := prnChecks t (hstatus.trans hr) hopcode
    exact (hoperands _ hoperand).2 r (toNat_regByte r)
  exact ⟨t, u, hldi.trans hexec, hprn.trans hexec', by rw [hout', hout, hreg]⟩

end Sys2Proof.Machine

/-! # The family 41_alu.md: MUL and CMP (O14, O15)

The operand checks are those of the format, read once off `fetchDecode_twoRegisters` as for the other
formats above. MUL is one register write and CMP one write of the whole of FL, by `execMul_eq` and
`execCmp_eq`; the value CMP writes has one equation per row of the table of R115. -/

namespace Sys2Proof.Machine

/-! ### The checks of two register operands (30_encoding.md R71) -/

/-- The checks of every operation of two register operands, the first before the second. -/
theorem checksTwoRegisters {o : Op} {mk : RegIndex → RegIndex → Instr}
    (hd : ∀ l, decodeOperands o l = decodeRegReg mk l) : ChecksTwoRegisters (opcodeByte o) mk := by
  intro s hr hop
  obtain ⟨hge, -, hf⟩ | ⟨hlt, hhigh, hf⟩ | ⟨hlt, hlow, hhigh, hf⟩ | ⟨hlt, ra, rb, hra, hrb, hf⟩ :=
    fetchDecode_twoRegisters hop hd
  · exact ⟨fun _ => faultsWith_of_fetch hr hf, fun _ => faultsWith_of_fetch hr hf,
      fun a b _ hb => absurd (memRead_ok_iff.1 hb).1 (by omega)⟩
  all_goals
    refine ⟨fun h => absurd h (by omega), fun h => absurd h hlt.ne, fun a b ha hb => ?_⟩
    obtain ⟨-, rfl⟩ := memRead_ok_iff.1 ha
    obtain ⟨-, rfl⟩ := memRead_ok_iff.1 hb
  · exact ⟨fun _ => faultsWith_of_fetch hr hf, fun h => absurd hhigh h.not_gt,
      fun p _ hp => absurd p.isLt (by omega)⟩
  · exact ⟨fun h => absurd h hlow.not_gt, fun _ _ => faultsWith_of_fetch hr hf,
      fun _ q _ hq => absurd q.isLt (by omega)⟩
  · refine ⟨fun h => absurd ra.isLt (by omega), fun _ h => absurd rb.isLt (by omega),
      fun p q hp hq => ?_⟩
    obtain rfl : ra = p := Fin.ext (hra.symm.trans hp)
    obtain rfl : rb = q := Fin.ext (hrb.symm.trans hq)
    exact step_decoded hr hf

/-! ### The flags CMP writes (10_state.md R26, 41_alu.md R115) -/

/-- The G bit is bit 1 of FL. -/
theorem flagG_eq (s : State) : s.flagG = s.FL.getLsbD 1 := by
  have h : ∀ v : Byte, flagTest flagMaskG v = v.getLsbD 1 := by decide
  exact h s.FL

/-- The L bit is bit 2 of FL. -/
theorem flagL_eq (s : State) : s.flagL = s.FL.getLsbD 2 := by
  have h : ∀ v : Byte, flagTest flagMaskL v = v.getLsbD 2 := by decide
  exact h s.FL

/-- The three flags of a state whose FL is known, in the order of the columns of R115. -/
theorem flags_of_FL_eq {t : State} {fl : Byte} (h : t.FL = fl) :
    t.FL = fl ∧ t.flagE = fl.getLsbD 0 ∧ t.flagG = fl.getLsbD 1 ∧ t.flagL = fl.getLsbD 2 := by
  rw [flagE_eq, flagG_eq, flagL_eq, h]
  exact ⟨rfl, rfl, rfl, rfl⟩

theorem compareFlags_of_eq {va vb : Byte} (h : va.toNat = vb.toNat) : compareFlags va vb = 0x01 :=
  if_pos h

theorem compareFlags_of_gt {va vb : Byte} (h : va.toNat > vb.toNat) : compareFlags va vb = 0x02 :=
  (if_neg h.ne').trans (if_pos h)

theorem compareFlags_of_lt {va vb : Byte} (h : va.toNat < vb.toNat) : compareFlags va vb = 0x04 :=
  (if_neg h.ne).trans (if_neg h.not_gt)

/-! ### The obligations -/

/-- Settles O14: MUL is one register write and the generic increment, and its checks are its format's. -/
theorem mulFollowsItsRule : Obligations.MulFollowsItsRule := by
  unfold Obligations.MulFollowsItsRule
  refine ⟨?effect, checksTwoRegisters (o := .mul) fun _ => rfl⟩
  case effect =>
    intro ra rb s
    refine ⟨_, execMul_eq ra rb s, ?product, sameRegsBut_setReg ra _ s, rfl, rfl, rfl, rfl, fun _ => rfl⟩
    case product => rw [State.advance_reg, State.reg_setReg_self, BitVec.toNat_ofNat]

/-- Settles O15: CMP is one write of FL and the generic increment, each clause of the comparison a row of
R115's table, and its checks are its format's. -/
theorem cmpFollowsItsRule : Obligations.CmpFollowsItsRule := by
  unfold Obligations.CmpFollowsItsRule
  refine ⟨?effect, checksTwoRegisters (o := .cmp) fun _ => rfl⟩
  case effect =>
    intro ra rb s
    exact ⟨_, execCmp_eq ra rb s, fun h => flags_of_FL_eq (compareFlags_of_eq h),
      fun h => flags_of_FL_eq (compareFlags_of_gt h), fun h => flags_of_FL_eq (compareFlags_of_lt h),
      fun _ _ => rfl, rfl, rfl, rfl, fun _ => rfl⟩

end Sys2Proof.Machine

/-! # The family 42_stack.md: PUSH and POP (O17, O18, O19)

Each of the two is one equation, `execPush_eq` and `execPop_eq`, over the two stack updates `State.pushed`
and `State.shrinkStack`, whose frames are stated here once. That PUSH then POP copies a register is derived
from the two rules alone (R134). -/

namespace Sys2Proof.Machine

/-! ### The frames of the two stack updates -/

/-- A push decrements the stack pointer (42_stack.md R130). -/
theorem State.pushed_reg_seven (s : State) (v : Byte) : (s.pushed v).reg 7 = s.reg 7 - 1 := by
  rw [State.pushed_reg, if_pos rfl, State.sp_eq]

/-- A push changes no register but the stack pointer (42_stack.md R130). -/
theorem sameRegsBut_pushed (s : State) (v : Byte) : SameRegsBut [7] s (s.pushed v) :=
  fun q hq => (State.pushed_reg s v q).trans (if_neg (List.ne_of_not_mem_cons hq))

/-- The byte pushed is the one at the decremented stack pointer (42_stack.md R130). -/
theorem memRead_pushed_top (s : State) (v : Byte) :
    memRead (s.reg 7 - 1).toNat (s.pushed v) = .ok v :=
  (memRead_pushed s v _).trans (if_pos rfl)

/-- A push leaves every other address as it was (42_stack.md R130). -/
theorem sameMemoryBut_pushed (s : State) (v : Byte) :
    SameMemoryBut (s.reg 7 - 1).toNat s (s.pushed v) :=
  fun b hb => (memRead_pushed s v b).trans (if_neg hb)

/-- The increment that ends a pop applies to what R7 then holds (42_stack.md R132). -/
theorem State.shrinkStack_reg_seven (s : State) : s.shrinkStack.reg 7 = s.reg 7 + 1 := by
  rw [State.reg_shrinkStack, if_pos rfl]

/-- The increment that ends a pop changes no register but the stack pointer (42_stack.md R132). -/
theorem sameRegsBut_shrinkStack (s : State) : SameRegsBut [7] s s.shrinkStack :=
  fun q hq => (State.reg_shrinkStack s q).trans (if_neg (List.ne_of_not_mem_cons hq))

/-- Two updates in turn keep the registers that each of them keeps. -/
theorem SameRegsBut.trans {rs rs' : List RegIndex} {s t u : State} (hst : SameRegsBut rs s t)
    (htu : SameRegsBut rs' t u) : SameRegsBut (rs ++ rs') s u := by
  intro q hq
  obtain ⟨hrs, hrs'⟩ := not_or.1 (mt List.mem_append.2 hq)
  exact (htu q hrs').trans (hst q hrs)

/-! ### The obligations -/

/-- Settles O17: PUSH is one `State.pushed` and the generic increment, and its checks are its format's. -/
theorem pushFollowsItsRule : Obligations.PushFollowsItsRule := by
  unfold Obligations.PushFollowsItsRule
  refine ⟨?effect, checksOneRegister (o := .push) fun _ => rfl⟩
  case effect =>
    intro r s
    refine ⟨_, execPush_eq r s, ?_⟩
    rw [State.sp_eq]
    generalize (if r = 7 then s.reg 7 - 1 else s.reg r) = v
    exact ⟨State.pushed_reg_seven s v, sameRegsBut_pushed s v, memRead_pushed_top s v,
      sameMemoryBut_pushed s v, rfl, rfl, rfl, rfl⟩

/-- Settles O18: POP is one register write, one `State.shrinkStack` and the generic increment, and its checks
are its format's. A write of R7 is what the increment then applies to. -/
theorem popFollowsItsRule : Obligations.PopFollowsItsRule := by
  unfold Obligations.PopFollowsItsRule
  refine ⟨?effect, checksOneRegister (o := .pop) fun _ => rfl⟩
  case effect =>
    intro r s
    refine ⟨_, _, memRead_inside (byte_lt _) s, execPop_eq r s, ?otherRegister, ?stackPointer,
      (sameRegsBut_setReg r _ s).trans (sameRegsBut_shrinkStack _), fun _ => rfl, rfl, rfl, rfl, rfl⟩
    case otherRegister =>
      intro hr
      rw [State.advance_reg, State.advance_reg, State.shrinkStack_reg_seven,
        State.reg_setReg_ne s hr.symm, State.reg_shrinkStack, if_neg hr, State.reg_setReg_self]
      exact ⟨rfl, rfl⟩
    case stackPointer =>
      rintro rfl
      rw [State.advance_reg, State.shrinkStack_reg_seven, State.reg_setReg_self]
      rfl

/-- Settles O19, from the rules of PUSH and of POP: the byte POP loads is the one PUSH has just stored. -/
theorem pushThenPopCopies : Obligations.PushThenPopCopies := by
  unfold Obligations.PushThenPopCopies
  intro rs rd s hrs hrd hne
  obtain ⟨t, hpush, hsp, hregs, hstored, -⟩ := pushFollowsItsRule.1 rs s
  obtain ⟨v, u, hloaded, hpop, hinto, -, hregs', hmem, -⟩ := popFollowsItsRule.1 rd t
  obtain ⟨hrdval, hsp'⟩ := hinto hrd
  rw [if_neg hrs] at hstored
  have hv : v = s.reg rs := by
    rw [hsp, hstored] at hloaded
    exact (Except.ok.inj hloaded).symm
  refine ⟨t, u, hpush, hpop, ?source, hrdval.trans hv, ?stackPointer, (hmem _).trans hstored⟩
  case source => rw [hregs' rs (by simp [hrs, hne]), hregs rs (by simp [hrs])]
  case stackPointer => rw [hsp', hsp, BitVec.sub_add_cancel]

end Sys2Proof.Machine

/-! # The family 43_control_transfer.md: RET and the three jumps (O22, O23, O24, O25, O26)

JMP, JEQ and JNE write pc and nothing else, so that one frame serves all three; what RET leaves behind is
one `State.jumpTo` and one `State.shrinkStack`, whose frames stand above. That RET returns behind its CALL
is derived from the rule of RET and from what CALL pushed (R150). -/

namespace Sys2Proof.Machine

/-! ### The frame of a jump -/

/-- A write of pc leaves every other part of the state as it was (10_state.md R24). -/
theorem setPc_frame (s : State) (n : Nat) :
    SameRegsBut [] s (s.setPc n) ∧ SameMemory s (s.setPc n) ∧ (s.setPc n).FL = s.FL ∧
      (s.setPc n).out = s.out ∧ (s.setPc n).status = s.status :=
  ⟨fun _ _ => rfl, fun _ => rfl, rfl, rfl, rfl⟩

/-- A jump, taken or not, writes pc alone (43_control_transfer.md R144, R146, R148). -/
theorem exec_jump_eq_setPc {i : Instr} {r : RegIndex}
    (hi : i = .jmp r ∨ i = .jeq r ∨ i = .jne r) (s : State) :
    exec i s = .next (s.setPc (s.after i).pc) := by
  rw [exec_eq_after]
  obtain rfl | rfl | rfl := hi
  · rfl
  · rw [State.after]; split <;> rfl
  · rw [State.after]; split <;> rfl

/-- JNE's target in the order of its rule, the taken branch first (43_control_transfer.md R148). -/
theorem after_jne_pc_of_clear (r : RegIndex) (s : State) :
    (s.after (.jne r)).pc = if s.FL.getLsbD 0 = false then (s.reg r).toNat else s.pc + 2 := by
  rw [after_jne_pc]
  cases s.FL.getLsbD 0 <;> rfl

/-! ### Bytes that are no opcode (30_encoding.md R69) -/

theorem opcodeByte_mem_opcodeBytes (o : Op) : opcodeByte o ∈ opcodeBytes := by
  cases o <;> decide

/-- The lookup answers nothing on a byte that is none of the twelve (30_encoding.md R69). -/
theorem opOf?_eq_none_of_not_mem {b : Byte} (h : b ∉ opcodeBytes) : opOf? b = none :=
  opOf?_eq_none.2 fun o hb => h (hb ▸ opcodeByte_mem_opcodeBytes o)

/-- The fetch of a byte that is none of the twelve is the step's fault (60_exceptions.md R175). -/
theorem faultsWith_unrecognizedOpcode {s : State} {b : Byte} (hr : s.status = .running)
    (h : memRead s.pc s = .ok b) (hb : b ∉ opcodeBytes) :
    FaultsWith s (.unrecognizedOpcode b s.pc) :=
  faultsWith_of_fetch hr (fetchDecode_unrecognized h (opOf?_eq_none_of_not_mem hb))

/-! ### The obligations -/

/-- Settles O22: RET jumps to the byte on top of the stack and shrinks the stack, which keeps the machine
running, so that a target byte that is no opcode is the next step's fetch fault. -/
theorem retFollowsItsRule : Obligations.RetFollowsItsRule := by
  unfold Obligations.RetFollowsItsRule
  refine ⟨?effect, ?runs, fetchPastEndFaults, ?noOpcode⟩
  case effect =>
    intro s
    exact ⟨_, _, memRead_inside (byte_lt _) s, execRet_eq s, rfl, State.shrinkStack_reg_seven _,
      sameRegsBut_shrinkStack _, fun _ => rfl, rfl, rfl, rfl⟩
  case runs =>
    intro s hr hop
    exact step_decoded hr (fetchDecode_noOperand (o := .ret) hop fun _ => rfl)
  case noOpcode =>
    intro s t b hr hret hread hb
    obtain rfl := eq_after_of_exec hret
    exact faultsWith_unrecognizedOpcode hr hread hb

/-- Settles O23: JMP writes pc alone, which at its own address changes nothing, and its checks are its
format's. -/
theorem jmpFollowsItsRule : Obligations.JmpFollowsItsRule := by
  unfold Obligations.JmpFollowsItsRule
  refine ⟨?effect, ?ownAddress, checksOneRegister (o := .jmp) fun _ => rfl⟩
  case effect =>
    intro r s
    exact ⟨_, exec_jump_eq_setPc (.inl rfl) s, rfl, setPc_frame s _⟩
  case ownAddress =>
    intro r s hown
    rw [execJmp_eq, State.jumpTo, hown]
    rfl

/-- Settles O24: JEQ writes pc alone, by bit 0 of FL, and its checks are its format's, whatever FL is. -/
theorem jeqFollowsItsRule : Obligations.JeqFollowsItsRule := by
  unfold Obligations.JeqFollowsItsRule
  refine ⟨?effect, checksOneRegister (o := .jeq) fun _ => rfl, fetchPastEndFaults⟩
  case effect =>
    intro r s
    exact ⟨_, exec_jump_eq_setPc (.inr (.inl rfl)) s, after_jeq_pc r s, setPc_frame s _⟩

/-- Settles O25: JNE writes pc alone, by bit 0 of FL, and its checks are its format's, whatever FL is. -/
theorem jneFollowsItsRule : Obligations.JneFollowsItsRule := by
  unfold Obligations.JneFollowsItsRule
  refine ⟨?effect, checksOneRegister (o := .jne) fun _ => rfl⟩
  case effect =>
    intro r s
    exact ⟨_, exec_jump_eq_setPc (.inr (.inr rfl)) s, after_jne_pc_of_clear r s, setPc_frame s _⟩

/-- Settles O26, from the rule of RET: the byte that stands where the CALL left the stack pointer is the
return address p + 2, which fits a byte. -/
theorem retReturnsBehindItsCall : Obligations.RetReturnsBehindItsCall := by
  unfold Obligations.RetReturnsBehindItsCall
  intro r s hpc
  have hfits : s.pc + 2 < 256 := by omega
  refine ⟨_, execCall_fits r s hfits, fun u _ hbyte => ?_⟩
  rw [State.jumpTo_reg, memRead_jumpTo, State.pushed_reg_seven, memRead_pushed_top] at hbyte
  obtain ⟨v, w, hloaded, hret, hw, -⟩ := retFollowsItsRule.1 u
  have hv : v = BitVec.ofNat 8 (s.pc + 2) := Except.ok.inj (hloaded.symm.trans hbyte)
  refine ⟨w, hret, ?_⟩
  rw [hw, hv, BitVec.toNat_ofNat, Nat.mod_eq_of_lt hfits]

end Sys2Proof.Machine

/-! # The family 44_machine_control.md: the byte that is no opcode (O28)

That a byte which is none of the twelve faults, and that the fault changes nothing but the status, are the
fetch's equations. That one of the twelve never raises the fault is read off `fault_of_opcode`, which says
once what a step on an opcode byte can fault with. -/

namespace Sys2Proof.Machine

/-! ### The faults of an opcode byte (60_exceptions.md R172, R173) -/

theorem exists_eq_opcodeByte_of_mem {b : Byte} (h : b ∈ opcodeBytes) : ∃ o, b = opcodeByte o := by
  have hall : ∀ c ∈ opcodeBytes, ∃ o ∈ Op.all, c = opcodeByte o := by decide
  obtain ⟨o, -, ho⟩ := hall b h
  exact ⟨o, ho⟩

/-- Behind an opcode byte the fetch can only miss an operand byte at the end of memory or find a register
index above 7 (30_encoding.md R71). -/
theorem fetchFault_of_opcode {s : State} {o : Op} (hop : memRead s.pc s = .ok (opcodeByte o)) {f : Fault}
    (hf : fetchDecode s = .error f) :
    f = .outOfBounds 256 ∨ ∃ v : Byte, 7 < v.toNat ∧ f = .invalidRegister v := by
  have hsame {g : Fault} (hg : fetchDecode s = .error g) : f = g := Except.error.inj (hf.symm.trans hg)
  have hnone {i : Instr} (hi : fetchDecode s = .ok i) : False := by rw [hi] at hf; cases hf
  cases o with
  | hlt | ret => exact (hnone (fetchDecode_noOperand hop fun _ => rfl)).elim
  | push | pop | prn | call | jmp | jeq | jne =>
    obtain ⟨-, h⟩ | ⟨-, hhigh, h⟩ | ⟨-, _, -, h⟩ := fetchDecode_oneRegister hop fun _ => rfl
    · exact .inl (hsame h)
    · exact .inr ⟨_, hhigh, hsame h⟩
    · exact (hnone h).elim
  | ldi =>
    obtain ⟨-, -, h⟩ | ⟨-, hhigh, h⟩ | ⟨-, _, -, h⟩ := fetchDecode_registerAndImmediate hop fun _ => rfl
    · exact .inl (hsame h)
    · exact .inr ⟨_, hhigh, hsame h⟩
    · exact (hnone h).elim
  | mul | cmp =>
    obtain ⟨-, -, h⟩ | ⟨-, hhigh, h⟩ | ⟨-, -, hhigh, h⟩ | ⟨-, _, _, -, -, h⟩ :=
      fetchDecode_twoRegisters hop fun _ => rfl
    · exact .inl (hsame h)
    · exact .inr ⟨_, hhigh, hsame h⟩
    · exact .inr ⟨_, hhigh, hsame h⟩
    · exact (hnone h).elim

/-- An instruction that was fetched can only miss the return address of a CALL at 254, which is 256
(43_control_transfer.md R140). -/
theorem execFault_eq_outOfBounds {s t : State} {i : Instr} {f : Fault} (hr : s.status = .running)
    (hi : fetchDecode s = .ok i) (ht : exec i s = .next t) (hf : t.status = .faulted f) :
    f = .outOfBounds 256 := by
  obtain hkept | ⟨r, rfl, hfails, rfl⟩ := exec_status ht
  · rw [hf, hr] at hkept
    split at hkept <;> cases hkept
  · have hfits : s.pc + 2 ≤ 256 := pc_add_length_le (bytesAtPc_of_fetchDecode hi)
    have haddr : s.pc + 2 = 256 := by omega
    rw [State.setStatus_status, haddr] at hf
    cases hf
    rfl

/-- Everything the step of a running machine on an opcode byte can fault with (60_exceptions.md R172,
R173). -/
theorem fault_of_opcode {s t : State} {o : Op} {f : Fault} (hr : s.status = .running)
    (hop : memRead s.pc s = .ok (opcodeByte o)) (ht : step s = .next t) (hf : t.status = .faulted f) :
    f = .outOfBounds 256 ∨ ∃ v : Byte, 7 < v.toNat ∧ f = .invalidRegister v := by
  obtain ⟨i, hi, hexec⟩ | ⟨g, hg, rfl⟩ := step_cases hr ht
  · exact .inl (execFault_eq_outOfBounds hr hi hexec hf)
  · cases hf
    exact fetchFault_of_opcode hop hg

/-- No opcode byte is refused as unrecognized (60_exceptions.md R175). -/
theorem not_faultsWith_unrecognizedOpcode {s : State} {o : Op} (hr : s.status = .running)
    (hop : memRead s.pc s = .ok (opcodeByte o)) (c : Byte) (p : Nat) :
    ¬ FaultsWith s (.unrecognizedOpcode c p) := by
  rintro ⟨t, ht, hf, -, -⟩
  obtain h | ⟨v, -, h⟩ := fault_of_opcode hr hop ht hf <;> cases h

/-! ### The obligation -/

/-- Settles O28: the fetch's fault writes the status alone, and a step on one of the twelve opcode bytes has
other faults only. -/
theorem unrecognizedOpcodeStopsAndChangesNothing :
    Obligations.UnrecognizedOpcodeStopsAndChangesNothing := by
  unfold Obligations.UnrecognizedOpcodeStopsAndChangesNothing
  refine ⟨fun s b hr hread => ⟨?stops, ?opcode⟩, by decide, by decide, by decide, by decide⟩
  case stops =>
    intro hb
    have hfetch := fetchDecode_unrecognized hread (opOf?_eq_none_of_not_mem hb)
    exact ⟨_, step_faulted hr hfetch, rfl, rfl, fun _ _ => rfl, fun _ => rfl, rfl, rfl⟩
  case opcode =>
    intro hb
    obtain ⟨o, rfl⟩ := exists_eq_opcodeByte_of_mem hb
    exact not_faultsWith_unrecognizedOpcode hr hread

end Sys2Proof.Machine

/-! # The family 60_exceptions.md: fault kinds and their order (O6, O29, O30, O31, O33)

`firstFault` is a chain of seven places, and for each place one lemma below says that a step raises its
fault; the operand checks in them are those of the three formats above. That a step has one outcome then
turns the chain into an equivalence, from which the rules of the single kinds are read off. A stopped
machine is answered unchanged, so that only a reset runs it again. -/

namespace Sys2Proof.Machine

/-! ### The formats of the opcode bytes (30_encoding.md R74) -/

theorem mem_bytesWithSecond_of_register {op : Byte} (h : op ∈ bytesWithSecondRegister) :
    op ∈ bytesWithSecond :=
  (by decide : bytesWithSecondRegister ⊆ bytesWithSecond) h

theorem mem_bytesWithFirst_of_second {op : Byte} (h : op ∈ bytesWithSecond) : op ∈ bytesWithFirst :=
  (by decide : bytesWithSecond ⊆ bytesWithFirst) h

theorem mem_opcodeBytes_of_first {op : Byte} (h : op ∈ bytesWithFirst) : op ∈ opcodeBytes :=
  (by decide : bytesWithFirst ⊆ opcodeBytes) h

/-- The second operand of MUL and CMP is a register, that of LDI is not (60_exceptions.md R173). -/
theorem mem_bytesWithSecondRegister_of_ne {op : Byte} (h : op ∈ bytesWithSecond) (hne : op ≠ 0x82) :
    op ∈ bytesWithSecondRegister :=
  (List.mem_cons.1 h).resolve_left hne

/-- The operand checks of an opcode byte that has operands. -/
theorem checks_of_mem_bytesWithFirst {op : Byte} (h : op ∈ bytesWithFirst) :
    (op ∉ bytesWithSecond ∧
      ∃ mk, (∀ r, opcodeByte (mk r).op = op) ∧ ChecksOneRegister op mk) ∨
    (op = 0x82 ∧ ChecksRegisterAndImmediate op .ldi) ∨
    (op ∈ bytesWithSecondRegister ∧
      ∃ mk, (∀ ra rb, opcodeByte (mk ra rb).op = op) ∧ ChecksTwoRegisters op mk) := by
  obtain ⟨o, rfl⟩ := exists_eq_opcodeByte_of_mem (mem_opcodeBytes_of_first h)
  cases o with
  | hlt | ret => exact absurd h (by decide)
  | push | pop | prn | call | jmp | jeq | jne =>
    refine .inl ⟨by decide, _, ?_, checksOneRegister fun _ => rfl⟩
    exact fun _ => rfl
  | ldi => exact .inr (.inl ⟨rfl, checksRegisterAndImmediate (o := .ldi) fun _ => rfl⟩)
  | mul | cmp =>
    refine .inr (.inr ⟨by decide, _, ?_, checksTwoRegisters fun _ => rfl⟩)
    exact fun _ _ => rfl

/-! ### The places of the fault order (60_exceptions.md R179) -/

/-- Every instruction that runs completes, but for a CALL without a return address. -/
theorem completes_of_exec {s : State} {i : Instr} (hr : s.status = .running)
    (hstep : step s = exec i s) (hcall : opcodeByte i.op = 0x50 → s.pc + 2 < 256) : Completes s := by
  obtain ⟨t, ht⟩ := exec_next i s
  refine ⟨t, hstep.trans ht, ?_⟩
  obtain hkept | ⟨r, rfl, hfails, -⟩ := exec_status ht
  · rw [hkept, hr]
    split
    · exact .inr rfl
    · exact .inl rfl
  · exact absurd (hcall rfl) hfails

section
variable {s : State} {op : Byte} (hr : s.status = .running) (hop : memRead s.pc s = .ok op)
include hr hop

theorem faultsWith_of_missing_first (h : op ∈ bytesWithFirst) (hend : 255 < s.pc + 1) :
    FaultsWith s (.outOfBounds ↑(s.pc + 1)) := by
  obtain ⟨hin, -⟩ := memRead_ok_iff.1 hop
  have hpc : s.pc = 255 := by omega
  rw [hpc]
  obtain ⟨-, mk, -, hc⟩ | ⟨-, hc⟩ | ⟨-, mk, -, hc⟩ := checks_of_mem_bytesWithFirst h
  all_goals exact (hc s hr hop).1 hpc

theorem faultsWith_of_missing_second (h : op ∈ bytesWithSecond) (hfirst : s.pc + 1 < 256)
    (hend : 255 < s.pc + 2) : FaultsWith s (.outOfBounds ↑(s.pc + 2)) := by
  have hpc : s.pc = 254 := by omega
  rw [hpc]
  obtain ⟨hno, -⟩ | ⟨-, hc⟩ | ⟨-, mk, -, hc⟩ :=
    checks_of_mem_bytesWithFirst (mem_bytesWithFirst_of_second h)
  · exact absurd h hno
  all_goals exact (hc s hr hop).2.1 hpc

/-- The check of the first index comes after the reads of all operand bytes. -/
theorem faultsWith_of_invalid_first (h : op ∈ bytesWithFirst)
    (hfit : op ∈ bytesWithSecond → s.pc + 2 < 256) {a : Byte} (ha : memRead (s.pc + 1) s = .ok a)
    (hhigh : 7 < a.toNat) : FaultsWith s (.invalidRegister a) := by
  obtain ⟨-, mk, -, hc⟩ | ⟨rfl, hc⟩ | ⟨hreg, mk, -, hc⟩ := checks_of_mem_bytesWithFirst h
  · obtain ⟨-, hoperand⟩ := hc s hr hop
    exact (hoperand a ha).1 hhigh
  · obtain ⟨-, -, hoperands⟩ := hc s hr hop
    exact (hoperands a _ ha (memRead_inside (hfit (by decide)) s)).1 hhigh
  · obtain ⟨-, -, hoperands⟩ := hc s hr hop
    exact (hoperands a _ ha (memRead_inside (hfit (mem_bytesWithSecond_of_register hreg)) s)).1 hhigh

theorem faultsWith_of_invalid_second (h : op ∈ bytesWithSecondRegister) {a b : Byte}
    (ha : memRead (s.pc + 1) s = .ok a) (hb : memRead (s.pc + 2) s = .ok b) (hlow : a.toNat ≤ 7)
    (hhigh : 7 < b.toNat) : FaultsWith s (.invalidRegister b) := by
  have hsecond := mem_bytesWithSecond_of_register h
  obtain ⟨hno, -⟩ | ⟨rfl, -⟩ | ⟨-, mk, -, hc⟩ :=
    checks_of_mem_bytesWithFirst (mem_bytesWithFirst_of_second hsecond)
  · exact absurd hsecond hno
  · exact absurd h (by decide)
  · obtain ⟨-, -, hoperands⟩ := hc s hr hop
    exact (hoperands a b ha hb).2.1 hlow hhigh

/-- CALL whose return address is no address, where its operand is valid (43_control_transfer.md R140). -/
theorem faultsWith_of_missing_returnAddress (h : op = 0x50) {a : Byte}
    (ha : memRead (s.pc + 1) s = .ok a) (hlow : a.toNat ≤ 7) (hend : 255 < s.pc + 2) :
    FaultsWith s (.outOfBounds ↑(s.pc + 2)) := by
  subst h
  obtain ⟨-, hoperand⟩ := checksOneRegister (o := .call) (fun _ => rfl) s hr hop
  have hstep := (hoperand a ha).2 ⟨a.toNat, by omega⟩ rfl
  exact ⟨_, hstep.trans (execCall_fails _ s (by omega)), rfl, rfl, rfl⟩

/-- An opcode byte without operands completes (30_encoding.md R74). -/
theorem completes_of_noOperand (h : op ∈ opcodeBytes) (hno : op ∉ bytesWithFirst) : Completes s := by
  obtain ⟨o, rfl⟩ := exists_eq_opcodeByte_of_mem h
  have runs {i : Instr} (hd : ∀ l, decodeOperands o l = .ok i) (hi : opcodeByte i.op ≠ 0x50) :
      Completes s :=
    completes_of_exec hr (step_decoded hr (fetchDecode_noOperand hop hd)) fun hcall => absurd hcall hi
  cases o with
  | hlt => exact runs (i := .hlt) (fun _ => rfl) (by decide)
  | ret => exact runs (i := .ret) (fun _ => rfl) (by decide)
  | _ => exact absurd (by decide) hno

/-- An opcode byte whose operand bytes are there, with valid register indices, completes, but for a CALL
without a return address. -/
theorem completes_of_operands (h : op ∈ bytesWithFirst) {a : Byte} (ha : memRead (s.pc + 1) s = .ok a)
    (hlow : a.toNat ≤ 7) (hfit : op ∈ bytesWithSecond → s.pc + 2 < 256)
    (hlow' : op ∈ bytesWithSecondRegister → (s.mem.get (s.pc + 2)).toNat ≤ 7)
    (hcall : op = 0x50 → s.pc + 2 < 256) : Completes s := by
  obtain ⟨-, mk, hmk, hc⟩ | ⟨rfl, hc⟩ | ⟨hreg, mk, hmk, hc⟩ := checks_of_mem_bytesWithFirst h
  · obtain ⟨-, hoperand⟩ := hc s hr hop
    exact completes_of_exec hr ((hoperand a ha).2 ⟨a.toNat, by omega⟩ rfl) (hmk _ ▸ hcall)
  · obtain ⟨-, -, hoperands⟩ := hc s hr hop
    have hb := memRead_inside (hfit (by decide)) s
    exact completes_of_exec hr ((hoperands a _ ha hb).2 ⟨a.toNat, by omega⟩ rfl) fun _ => hfit (by decide)
  · obtain ⟨-, -, hoperands⟩ := hc s hr hop
    have hb := memRead_inside (hfit (mem_bytesWithSecond_of_register hreg)) s
    have hlowb := hlow' hreg
    exact completes_of_exec hr
      ((hoperands a _ ha hb).2.2 ⟨a.toNat, by omega⟩ ⟨(s.mem.get (s.pc + 2)).toNat, by omega⟩ rfl rfl)
      (hmk _ _ ▸ hcall)

end

/-! ### How a step ends -/

/-- A step ends with the fault, where there is one, and completes where there is none. -/
def EndsWith (s : State) : Option Fault → Prop
  | some f => FaultsWith s f
  | none => Completes s

/-- One place of a chain of faults: its fault where it applies, and the rest of the chain where not. -/
theorem endsWith_ite {s : State} {c : Prop} [Decidable c] {f : Fault} {rest : Option Fault}
    (hfault : c → FaultsWith s f) (hrest : ¬ c → EndsWith s rest) :
    EndsWith s (if c then some f else rest) := by
  split
  next h => exact hfault h
  next h => exact hrest h

/-- The order of R179, one lemma for each of its places. -/
theorem endsWith_firstFault {s : State} (hr : s.status = .running) : EndsWith s (firstFault s) := by
  refine endsWith_ite (fetchPastEndFaults s hr) fun hpc => ?_
  have hop := memRead_inside (Nat.lt_of_not_le hpc) s
  refine endsWith_ite (faultsWith_unrecognizedOpcode hr hop) fun hknown => ?_
  refine endsWith_ite (fun h => faultsWith_of_missing_first hr hop h.1 h.2) fun hmissing => ?_
  have hfirst (h : s.mem.get s.pc ∈ bytesWithFirst) : s.pc + 1 < 256 :=
    Nat.lt_of_not_le fun hend => hmissing ⟨h, hend⟩
  have ha (h : s.mem.get s.pc ∈ bytesWithFirst) := memRead_inside (hfirst h) s
  refine endsWith_ite (fun h => faultsWith_of_missing_second hr hop h.1
    (hfirst (mem_bytesWithFirst_of_second h.1)) h.2) fun hmissing' => ?_
  have hsecond (h : s.mem.get s.pc ∈ bytesWithSecond) : s.pc + 2 < 256 :=
    Nat.lt_of_not_le fun hend => hmissing' ⟨h, hend⟩
  refine endsWith_ite (fun h => faultsWith_of_invalid_first hr hop h.1 hsecond (ha h.1) h.2)
    fun hinvalid => ?_
  have hlow (h : s.mem.get s.pc ∈ bytesWithFirst) : (s.mem.get (s.pc + 1)).toNat ≤ 7 :=
    Nat.le_of_not_lt fun hhigh => hinvalid ⟨h, hhigh⟩
  refine endsWith_ite ?invalidSecond fun hinvalid' => endsWith_ite ?missingReturn fun hreturn => ?none
  case invalidSecond =>
    rintro ⟨h, hhigh⟩
    have h2 := mem_bytesWithSecond_of_register h
    have h1 := mem_bytesWithFirst_of_second h2
    exact faultsWith_of_invalid_second hr hop h (ha h1) (memRead_inside (hsecond h2) s) (hlow h1) hhigh
  case missingReturn =>
    rintro ⟨h, hend⟩
    have h1 : s.mem.get s.pc ∈ bytesWithFirst := h ▸ (by decide)
    exact faultsWith_of_missing_returnAddress hr hop h (ha h1) (hlow h1) hend
  case none =>
    by_cases h1 : s.mem.get s.pc ∈ bytesWithFirst
    · exact completes_of_operands hr hop h1 (ha h1) (hlow h1) hsecond
        (fun h => Nat.le_of_not_lt fun hhigh => hinvalid' ⟨h, hhigh⟩)
        (fun h => Nat.lt_of_not_le fun hend => hreturn ⟨h, hend⟩)
    · exact completes_of_noOperand hr hop (not_not.1 hknown) h1

/-- A step has one outcome: the fault it takes is the one it ends with. -/
theorem EndsWith.eq_some {s t : State} {o : Option Fault} {f : Fault} (h : EndsWith s o)
    (ht : step s = .next t) (hf : t.status = .faulted f) : o = some f := by
  cases o with
  | none =>
    obtain ⟨u, hu, hkept⟩ := h
    obtain rfl : t = u := Host.Outcome.next.inj (ht.symm.trans hu)
    obtain hrun | hhalt := hkept
    · cases hf.symm.trans hrun
    · cases hf.symm.trans hhalt
  | some g =>
    obtain ⟨u, hu, hg, -, -⟩ := h
    obtain rfl : t = u := Host.Outcome.next.inj (ht.symm.trans hu)
    obtain rfl : g = f := Status.faulted.inj (hg.symm.trans hf)
    rfl

/-- The fault a running machine's step takes is the first that applies (60_exceptions.md R179). -/
theorem firstFault_of_faulted {s t : State} {f : Fault} (hr : s.status = .running)
    (ht : step s = .next t) (hf : t.status = .faulted f) : firstFault s = some f :=
  (endsWith_firstFault hr).eq_some ht hf

theorem firstFault_of_faultsWith {s : State} {f : Fault} (hr : s.status = .running)
    (h : FaultsWith s f) : firstFault s = some f := by
  obtain ⟨t, ht, hf, -, -⟩ := h
  exact firstFault_of_faulted hr ht hf

/-! ### The kinds in the order of R179 -/

/-- The places of OutOfBounds, within the pc bound of 10_state.md R25 (60_exceptions.md R172). -/
theorem outOfBounds_of_firstFault {s : State} {a : Int} (hpc : s.pc ≤ 256)
    (h : firstFault s = some (.outOfBounds a)) :
    a = 256 ∧
      (s.pc = 256 ∨
      (s.pc = 255 ∧ s.mem.get 255 ∈ bytesWithFirst) ∨
      (s.pc = 254 ∧ s.mem.get 254 ∈ bytesWithSecond) ∨
      (s.pc = 254 ∧ s.mem.get 254 = 0x50 ∧ (s.mem.get 255).toNat ≤ 7)) := by
  simp only [firstFault, ite_eq_iff] at h
  obtain ⟨hend, hf⟩ | ⟨hfetch, h⟩ := h
  · cases hf
    omega
  obtain ⟨-, hf⟩ | ⟨-, h⟩ := h
  · cases hf
  obtain ⟨⟨h1, hend⟩, hf⟩ | ⟨hmissing, h⟩ := h
  · have hat : s.pc = 255 := by omega
    rw [hat] at h1 hf ⊢
    cases hf
    exact ⟨rfl, .inr (.inl ⟨rfl, h1⟩)⟩
  have hat (h1 : s.mem.get s.pc ∈ bytesWithFirst) (hend : 255 < s.pc + 2) : s.pc = 254 := by
    have hfirst := Nat.lt_of_not_le fun hend => hmissing ⟨h1, hend⟩
    omega
  obtain ⟨⟨h2, hend⟩, hf⟩ | ⟨-, h⟩ := h
  · have hat := hat (mem_bytesWithFirst_of_second h2) hend
    rw [hat] at h2 hf ⊢
    cases hf
    exact ⟨rfl, .inr (.inr (.inl ⟨rfl, h2⟩))⟩
  obtain ⟨-, hf⟩ | ⟨hinvalid, h⟩ := h
  · cases hf
  obtain ⟨-, hf⟩ | ⟨-, h⟩ := h
  · cases hf
  obtain ⟨⟨hcall, hend⟩, hf⟩ | ⟨-, hf⟩ := h
  · have h1 : s.mem.get s.pc ∈ bytesWithFirst := hcall ▸ (by decide)
    have hat := hat h1 hend
    have hlow := Nat.le_of_not_lt fun hhigh => hinvalid ⟨h1, hhigh⟩
    rw [hat] at hcall hlow hf ⊢
    cases hf
    exact ⟨rfl, .inr (.inr (.inr ⟨rfl, hcall, hlow⟩))⟩
  · cases hf

/-- UnsupportedOperation has no place in the order (60_exceptions.md R174). -/
theorem firstFault_ne_unsupportedOperation (s : State) (op : AluOp) :
    firstFault s ≠ some (.unsupportedOperation op) := by
  simp [firstFault, ite_eq_iff]

/-! ### A stopped machine and the host (70_reset_and_hazards.md R221, R222) -/

theorem hostStep_stopped {s : State} (h : s.status ≠ .running) : hostStep s = s := by
  rw [hostStep, step_stopped h]

theorem isRunning_eq_false {s : State} (h : s.status ≠ .running) : s.isRunning = false := by
  unfold State.isRunning
  split <;> trivial

theorem runBounded_stopped {s : State} (h : s.status ≠ .running) (bound : Nat) :
    runBounded bound s = s := by
  cases bound with
  | zero => rfl
  | succ bound => simp [runBounded, isRunning_eq_false h]

/-! ### The obligations -/

/-- Settles O6: the step ends with the first place of R179 that applies. -/
theorem firstApplicableFaultIsRaised : Obligations.FirstApplicableFaultIsRaised := by
  unfold Obligations.FirstApplicableFaultIsRaised
  intro s hr
  have hend := endsWith_firstFault hr
  exact ⟨fun f hf => by rwa [hf] at hend, fun hnone => by rwa [hnone] at hend⟩

/-- Settles O29: the four cases raise the fault by the lemmas of their places, and no other place of R179
is one of OutOfBounds. -/
theorem outOfBoundsIsRaisedExactlyAtTheEndOfMemory :
    Obligations.OutOfBoundsIsRaisedExactlyAtTheEndOfMemory := by
  unfold Obligations.OutOfBoundsIsRaisedExactlyAtTheEndOfMemory
  intro s hr hpc
  have hcases {a : Int} (h : FaultsWith s (.outOfBounds a)) :=
    outOfBounds_of_firstFault hpc (firstFault_of_faultsWith hr h)
  refine ⟨fun a h => (hcases h).1, fun h => (hcases h).2, ?raised⟩
  case raised =>
    have hread (hin : s.pc < 256) := memRead_inside hin s
    rintro (hat | ⟨hat, hop⟩ | ⟨hat, hop⟩ | ⟨hat, hop, hlow⟩)
    · simpa [hat] using fetchPastEndFaults s hr (by omega)
    · rw [← hat] at hop
      simpa [hat] using faultsWith_of_missing_first hr (hread (by omega)) hop (by omega)
    · rw [← hat] at hop
      simpa [hat] using faultsWith_of_missing_second hr (hread (by omega)) hop (by omega) (by omega)
    · have ha : memRead (s.pc + 1) s = .ok (s.mem.get 255) := by
        rw [hat]; exact memRead_inside (by omega) s
      rw [← hat] at hop
      simpa [hat] using
        faultsWith_of_missing_returnAddress hr (hread (by omega)) hop ha hlow (by omega)

/-- Settles O30, by the lemmas of the two places of R179 for a register index; LDI's immediate has none. -/
theorem invalidRegisterIsRaisedAtDecode : Obligations.InvalidRegisterIsRaisedAtDecode := by
  unfold Obligations.InvalidRegisterIsRaisedAtDecode
  intro s op a hr hop ha h
  refine ⟨fun hno => faultsWith_of_invalid_first hr hop h (fun h2 => absurd h2 hno) ha,
    fun b hb h2 => ?_⟩
  have hfit : s.pc + 2 < 256 := (memRead_ok_iff.1 hb).1
  refine ⟨faultsWith_of_invalid_first hr hop h (fun _ => hfit) ha, fun hne hlow => ?second,
    fun hldi hlow => ?immediate⟩
  case second =>
    exact faultsWith_of_invalid_second hr hop (mem_bytesWithSecondRegister_of_ne h2 hne) ha hb hlow
  case immediate =>
    subst hldi
    exact completes_of_operands hr hop h ha hlow (fun _ => hfit) (fun h => absurd h (by decide))
      fun _ => hfit

/-- Settles O31: no place of R179 is one of UnsupportedOperation, and the ALU's table has one row that
fails. -/
theorem unsupportedOperationIsNeverRaisedByAStep :
    Obligations.UnsupportedOperationIsNeverRaisedByAStep := by
  unfold Obligations.UnsupportedOperationIsNeverRaisedByAStep
  refine ⟨fun s t op hr ht hf => ?step, fun op a b f => ?alu⟩
  case step => exact firstFault_ne_unsupportedOperation s op (firstFault_of_faulted hr ht hf)
  case alu =>
    cases op with
    | add | mul | cmp => simp [aluApply]
    | other tag => simp [aluApply, eq_comm]

/-- Settles O33: on a stopped machine a load writes memory alone, and a step or a run does nothing. -/
theorem onlyAResetRunsAStoppedMachineAgain : Obligations.OnlyAResetRunsAStoppedMachineAgain := by
  unfold Obligations.OnlyAResetRunsAStoppedMachineAgain
  intro c h h' hstop happly
  cases c with
  | reset => cases happly; exact .inl ⟨rfl, rfl⟩
  | load bytes =>
    rw [Session.apply] at happly
    split at happly
    · cases happly
    · obtain ⟨m, hm, rfl⟩ := Option.map_eq_some_iff.1 happly
      obtain rfl := eq_setMem_of_load hm
      exact .inr rfl
  | step => cases happly; exact .inr (congrArg State.status (hostStep_stopped hstop))
  | run bound => cases happly; exact .inr (congrArg State.status (runBounded_stopped hstop bound))

end Sys2Proof.Machine

/-! # The family 70_reset_and_hazards.md: the host's step (O44) -/

namespace Sys2Proof.Machine

/-- A step answers exactly the state of the host's step: it always answers a next state. -/
theorem step_eq_next_hostStep (s : State) : step s = .next (hostStep s) := by
  obtain ⟨t, ht⟩ := step_next s
  have hhost : hostStep s = t := by rw [hostStep, ht]
  rw [ht, hhost]

/-- Settles O44: a step always answers a next state, and a stopped machine's host step gives the state back. -/
theorem hostStepStepsOnlyARunningMachine : Obligations.HostStepStepsOnlyARunningMachine := by
  unfold Obligations.HostStepStepsOnlyARunningMachine
  exact fun s => ⟨fun _ => step_eq_next_hostStep s, hostStep_stopped⟩

end Sys2Proof.Machine

/-! # Statements over all instructions: decoding, one step, memory, the stack's parameter, CALL, HLT, the
host, the invariant (O2 to O5, O7, O9, O13, O20, O21, O27, O32, O34, O37, O38, O40, O41, O45, O46)

Decoding inverts encoding, so that `fetchDecode` answers an instruction exactly where its encoding stands
at pc; what a step does is then `State.after` of that instruction, and the memory it leaves has one
inversion, `step_mem_cases`. -/

/-! ### The decoder on encodings (30_encoding.md R60, R65, R71) -/

namespace Sys2Proof

theorem decodeOperands_operandBytes_append (i : Instr) (rest : List Byte) :
    decodeOperands i.op (operandBytes i ++ rest) = .ok i := by
  have hreg (mk : RegIndex → Instr) (r : RegIndex) : decodeReg mk (regByte r :: rest) = .ok (mk r) := by
    rw [decodeReg_cons, regOperand_regByte]; rfl
  have hregReg (mk : RegIndex → RegIndex → Instr) (ra rb : RegIndex) :
      decodeRegReg mk (regByte ra :: regByte rb :: rest) = .ok (mk ra rb) := by
    rw [decodeRegReg_cons, regOperand_regByte, regOperand_regByte]; rfl
  cases i with
  | hlt | ret => rfl
  | push r | pop r | prn r | call r | jmp r | jeq r | jne r => exact hreg _ r
  | ldi r imm => exact (decodeRegImm_cons rest .ldi _ imm).trans (by rw [regOperand_regByte]; rfl)
  | mul ra rb | cmp ra rb => exact hregReg _ ra rb

/-- Decoding undoes encoding, whatever bytes follow. -/
theorem decode_encode_append (i : Instr) (rest : List Byte) : decode (encode i ++ rest) = .ok i :=
  (decode_cons_of_op rfl _).trans (decodeOperands_operandBytes_append i rest)

theorem decode_encode (i : Instr) : decode (encode i) = .ok i :=
  List.append_nil (encode i) ▸ decode_encode_append i []

/-- The one check an instruction's place adds to its bytes: CALL's return address (43_control_transfer.md
R140). -/
theorem returnFits_iff {pc : Nat} {i : Instr} :
    i.returnFits pc = true ↔ ∀ r, i = .call r → pc + 2 < 256 := by
  cases i with
  | call r => exact decide_eq_true_iff.trans ⟨fun h _ _ => h, fun h => h r rfl⟩
  | _ => simp [Instr.returnFits]

theorem eq_call_of_opcodeByte {i : Instr} (h : opcodeByte i.op = 0x50) : ∃ r, i = .call r := by
  have hop : i.op = .call :=
    Option.some.inj ((opOf?_opcodeByte i.op).symm.trans ((congrArg opOf? h).trans (opOf?_opcodeByte .call)))
  cases i with
  | call r => exact ⟨r, rfl⟩
  | _ => cases hop

theorem wellFormedAt_iff {pc : Nat} {i : Instr} :
    i.wellFormedAt pc = true ↔ pc + i.length ≤ 256 ∧ ∀ r, i = .call r → pc + 2 < 256 := by
  rw [Instr.wellFormedAt, Bool.and_eq_true, returnFits_iff, Instr.bytesFit, decide_eq_true_iff,
    Config.memSize]

/-- Settles O3: bytes that decode begin with the encoding, and decoding undoes encoding. -/
theorem decodeAnswersExactlyTheEncodings : Obligations.DecodeAnswersExactlyTheEncodings := by
  unfold Obligations.DecodeAnswersExactlyTheEncodings
  intro bytes i
  refine ⟨eq_encode_append_of_decode, ?_⟩
  rintro ⟨rest, rfl⟩
  exact decode_encode_append i rest

/-- Settles O2: the eight accepted words are encodings, the ninth fails the register check, the tenth the
opcode lookup. -/
theorem sampleWordsDecode : Obligations.SampleWordsDecode := by
  unfold Obligations.SampleWordsDecode
  exact ⟨decode_encode (.ldi 0 8), decode_encode (.prn 7), decode_encode (.mul 2 5),
    decode_encode (.cmp 6 1), decode_encode (.push 3), decode_encode (.call 1), decode_encode (.jne 4),
    decode_encode .hlt, rfl, decode_cons_unrecognized rfl _⟩

end Sys2Proof

namespace Sys2Proof.Machine

/-! ### The instruction at pc (30_encoding.md R71, R73) -/

/-- Bytes that stand at `a` begin the fetch window there, if they fit in it. -/
theorem fetchWindow_eq_append {s : State} {bytes : List Byte} {n a : Nat} (hlen : bytes.length ≤ n)
    (h : ∀ (k : Nat) (hk : k < bytes.length), memRead (a + k) s = .ok bytes[k]) :
    ∃ rest, fetchWindow n a s = bytes ++ rest := by
  induction bytes generalizing n a with
  | nil => exact ⟨_, rfl⟩
  | cons b bytes ih =>
    cases n with
    | zero => cases hlen
    | succ n =>
      obtain ⟨hin, hb⟩ := memRead_ok_iff.1 (Nat.add_zero a ▸ h 0 (Nat.succ_pos _))
      obtain ⟨rest, hrest⟩ := ih (a := a + 1) (Nat.le_of_succ_le_succ hlen) fun k hk => by
        rw [Nat.add_assoc, Nat.add_comm 1]
        exact h (k + 1) (Nat.succ_lt_succ hk)
      refine ⟨rest, ?_⟩
      rw [fetchWindow_succ_inside n hin, hrest]
      exact congrArg (· :: (bytes ++ rest)) hb

/-- The fetch answers an instruction exactly where its encoding stands at pc. -/
theorem fetchDecode_ok_iff {s : State} {i : Instr} :
    fetchDecode s = .ok i ↔ BytesAtPc s (encode i) := by
  refine ⟨bytesAtPc_of_fetchDecode, fun h => ?_⟩
  obtain ⟨rest, hwindow⟩ := fetchWindow_eq_append ((length_encode i).trans_le (length_le_three i)) h
  exact fetchDecode_of_ok (hwindow ▸ decode_encode_append i rest)

/-- Settles O4: the fetch answers the instruction whose encoding stands at pc. -/
theorem stepRunsTheInstructionAtPc : Obligations.StepRunsTheInstructionAtPc := by
  unfold Obligations.StepRunsTheInstructionAtPc
  exact fun _ _ hr hbytes => step_decoded hr (fetchDecode_ok_iff.2 hbytes)

/-! ### How a step ends (30_encoding.md R73, 44_machine_control.md R160) -/

/-- HLT is the only instruction that halts a running machine. -/
theorem eq_hlt_of_exec_halted {i : Instr} {s t : State} (hr : s.status = .running)
    (ht : exec i s = .next t) (hhalt : t.status = .halted) : i = .hlt := by
  obtain hkept | ⟨r, -, -, rfl⟩ := exec_status ht
  · by_contra hne
    rw [if_neg hne, hr, hhalt] at hkept
    cases hkept
  · cases hhalt

/-- An instruction that runs completes exactly where its return address, if it stores one, is an address. -/
theorem completes_iff_of_exec {s : State} {i : Instr} (hr : s.status = .running)
    (hstep : step s = exec i s) : Completes s ↔ ∀ r, i = .call r → s.pc + 2 < 256 := by
  constructor
  · rintro ⟨t, ht, hkept⟩ r rfl
    by_contra hfails
    rw [hstep, execCall_fails r s hfails] at ht
    cases ht
    rcases hkept with h | h <;> cases h
  · intro h
    refine completes_of_exec hr hstep fun hop => ?_
    obtain ⟨r, hi⟩ := eq_call_of_opcodeByte hop
    exact h r hi

/-- Settles O5: a step always answers a next state, and one that halts has run HLT. -/
theorem stepHasOneOfThreeOutcomes : Obligations.StepHasOneOfThreeOutcomes := by
  unfold Obligations.StepHasOneOfThreeOutcomes
  refine fun s => ⟨fun hr => ?_, step_stopped⟩
  obtain ⟨t, ht⟩ := step_next s
  refine ⟨t, ht, ?outcome, fun hhalt => ?byHlt⟩
  case outcome =>
    cases t.status with
    | running => exact .inl rfl
    | halted => exact .inr (.inl rfl)
    | faulted f => exact .inr (.inr ⟨f, rfl⟩)
  case byHlt =>
    obtain ⟨i, hi, hexec⟩ | ⟨f, -, rfl⟩ := step_cases hr ht
    · obtain rfl := eq_hlt_of_exec_halted hr hexec hhalt
      exact bytesAtPc_of_fetchDecode hi 0 Nat.one_pos
    · cases hhalt

/-- Settles O7: what completes was fetched, so it stands at pc and ends inside memory; what stands at pc
runs, and completes where CALL's return address is one. -/
theorem stepCompletesExactlyOnWellFormedInstructions :
    Obligations.StepCompletesExactlyOnWellFormedInstructions := by
  unfold Obligations.StepCompletesExactlyOnWellFormedInstructions
  intro s hr
  constructor
  · intro hc
    cases hd : fetchDecode s with
    | error f =>
      obtain ⟨t, ht, hkept⟩ := hc
      rw [step_faulted hr hd] at ht
      cases ht
      rcases hkept with h | h <;> cases h
    | ok i =>
      have hbytes := bytesAtPc_of_fetchDecode hd
      exact ⟨i, hbytes, wellFormedAt_iff.2
        ⟨pc_add_length_le hbytes, (completes_iff_of_exec hr (step_decoded hr hd)).1 hc⟩⟩
  · rintro ⟨i, hbytes, hwf⟩
    exact (completes_iff_of_exec hr (stepRunsTheInstructionAtPc s i hr hbytes)).2 (wellFormedAt_iff.1 hwf).2

/-- Settles O9: the rows of `State.after` that are no taken transfer are `State.advance`. -/
theorem untakenInstructionsAdvanceByTheirOperandCount :
    Obligations.UntakenInstructionsAdvanceByTheirOperandCount := by
  unfold Obligations.UntakenInstructionsAdvanceByTheirOperandCount
  intro i s hmark
  refine ⟨s.after i, exec_eq_after i s, ?_⟩
  cases i with
  | call | ret | jmp => obtain h | ⟨h, -⟩ | ⟨h, -⟩ := hmark <;> cases h
  | jeq r =>
    obtain h | ⟨-, hE⟩ | ⟨h, -⟩ := hmark
    · cases h
    · rw [State.after, hE]; rfl
    · cases h
  | jne r =>
    obtain h | ⟨h, -⟩ | ⟨-, hE⟩ := hmark
    · cases h
    · cases h
    · rw [State.after, hE]; rfl
  | hlt | push | pop | prn | ldi | mul | cmp => rfl

/-! ### The ALU (41_alu.md R111, R116) -/

theorem ofNat_mod_256 (n : Nat) : BitVec.ofNat 8 (n % 256) = BitVec.ofNat 8 n :=
  BitVec.eq_of_toNat_eq (by simp)

/-- Settles O13: the ALU's reduction to a byte is the one modulo 256. -/
theorem aluComputesItsTable : Obligations.AluComputesItsTable := by
  unfold Obligations.AluComputesItsTable
  refine ⟨fun a b => ⟨?add, ?mul, rfl⟩, fun _ _ _ => rfl, fun v => ⟨?zero, ?one⟩, rfl, rfl⟩
  case add => rw [ofNat_mod_256]; rfl
  case mul => rw [ofNat_mod_256]; rfl
  case zero => simp [aluApply, wrap8]
  case one => simp [aluApply, wrap8]

/-! ### The stack's parameter (42_stack.md R136) -/

theorem growStack_true (s : State) :
    growStack true s = if s.reg 7 = 0 then .error (.outOfBounds (-1)) else growStack false s :=
  growStack_wrapFaults s

theorem loadTop_true (s : State) :
    loadTop true s = if s.reg 7 = 255 then .error (.outOfBounds 256) else loadTop false s :=
  (loadTop_wrapFaults s).trans (by rw [← loadTop_default]; rfl)

/-- Settles O20: at the default the rules of PUSH, POP and RET count modulo 256; with the parameter true the
guard is the whole difference. -/
theorem stackWrapsOrFaultsByParameter : Obligations.StackWrapsOrFaultsByParameter := by
  unfold Obligations.StackWrapsOrFaultsByParameter
  refine ⟨State.reset_reg 7, ?push, ?pop, ?ret, ?pushTrue, ?callTrue, ?popTrue, ?retTrue⟩
  case push =>
    intro r s hsp
    obtain ⟨t, ht, hsp', -, hstored, -⟩ := pushFollowsItsRule.1 r s
    rw [hsp] at hsp' hstored
    exact ⟨t, ht, hsp', hstored⟩
  case pop =>
    intro r s hr hsp
    obtain ⟨_, t, -, ht, hsp', -⟩ := popFollowsItsRule.1 r s
    exact ⟨t, ht, by rw [(hsp' hr).2, hsp]; rfl⟩
  case ret =>
    intro s hsp
    obtain ⟨_, t, -, ht, -, hsp', -⟩ := retFollowsItsRule.1 s
    exact ⟨t, ht, by rw [hsp', hsp]; rfl⟩
  case pushTrue => intro r s; rw [pushEffect, growStack_true]; split <;> rfl
  case callTrue =>
    intro r s hfits
    rw [callEffect, callEffect, returnAddress_fits hfits, growStack_true]
    split <;> rfl
  case popTrue => intro r s; rw [popEffect, loadTop_true]; split <;> rfl
  case retTrue => intro s; rw [retEffect, loadTop_true]; split <;> rfl

/-! ### CALL and HLT (43_control_transfer.md R140, 44_machine_control.md R160) -/

/-- Settles O21: CALL is one `State.pushed` and a jump, or the fault of its return address, and its checks are
its format's. -/
theorem callFollowsItsRule : Obligations.CallFollowsItsRule := by
  unfold Obligations.CallFollowsItsRule
  refine ⟨?effect, ?missingReturn, checksOneRegister (o := .call) fun _ => rfl⟩
  case effect =>
    intro r s hfits
    refine ⟨_, execCall_fits r s (Nat.lt_succ_of_le hfits), ?_⟩
    generalize BitVec.ofNat 8 (s.pc + 2) = ret
    exact ⟨State.pushed_reg_seven s ret, sameRegsBut_pushed s ret, memRead_pushed_top s ret,
      sameMemoryBut_pushed s ret, rfl, rfl, rfl, rfl⟩
  case missingReturn =>
    intro r s hfails
    exact ⟨_, execCall_fails r s (Nat.not_lt.2 hfails), rfl, rfl, rfl⟩

/-- Settles O27: HLT writes pc and the status, no other instruction ends halted, and no host move but reset
changes a stopped machine's status. -/
theorem hltFollowsItsRule : Obligations.HltFollowsItsRule := by
  unfold Obligations.HltFollowsItsRule
  refine ⟨?effect, ?runs, fetchPastEndFaults, ?stays, fun _ _ _ => eq_hlt_of_exec_halted, ?host⟩
  case effect =>
    intro s
    exact ⟨_, execHlt_eq s, rfl, rfl, fun _ _ => rfl, fun _ => rfl, rfl, rfl⟩
  case runs =>
    intro s hr hop
    exact step_decoded hr (fetchDecode_noOperand (o := .hlt) hop fun _ => rfl)
  case stays =>
    intro s hhalt
    exact step_stopped (by simp [hhalt])
  case host =>
    intro c h h' hhalt hc happly
    obtain ⟨hreset, -⟩ | hkept := onlyAResetRunsAStoppedMachineAgain c h h' (by simp [hhalt]) happly
    · exact absurd hreset hc
    · exact hkept.trans hhalt

/-! ### What an instruction and a step leave in memory (20_memory.md R43) -/

/-- Memory is kept, or PUSH or CALL has stored one byte at the decremented stack pointer. -/
theorem after_mem_cases (i : Instr) (s : State) :
    (s.after i).mem = s.mem ∨
      (i.op = .push ∨ i.op = .call) ∧ ∃ v, (s.after i).mem = s.mem.set (s.reg 7 - 1).toNat v := by
  cases i with
  | push r => exact .inr ⟨.inl rfl, _, rfl⟩
  | call r =>
    rw [State.after]
    split
    · exact .inr ⟨.inr rfl, _, rfl⟩
    · exact .inl rfl
  | jeq r | jne r => rw [State.after]; split <;> exact .inl rfl
  | _ => exact .inl rfl

/-- A step keeps memory, or the opcode byte of PUSH or of CALL stands at pc and one byte is stored. -/
theorem step_mem_cases {s t : State} (h : step s = .next t) :
    t.mem = s.mem ∨
      (memRead s.pc s = .ok 0x45 ∨ memRead s.pc s = .ok 0x50) ∧
        ∃ v, t.mem = s.mem.set (s.reg 7 - 1).toNat v := by
  obtain rfl | ⟨f, rfl⟩ | ⟨-, i, hbytes, rfl⟩ := step_next_cases h
  · exact .inl rfl
  · exact .inl rfl
  · have hop : memRead s.pc s = .ok (opcodeByte i.op) := hbytes 0 (Nat.succ_pos _)
    refine (after_mem_cases i s).imp_right fun ⟨hi, hstored⟩ => ⟨hi.imp ?_ ?_, hstored⟩
    · intro hpush; rw [hop, hpush]; rfl
    · intro hcall; rw [hop, hcall]; rfl

/-- Reads see the memory alone. -/
theorem memRead_of_mem_eq {s t : State} {m : Memory} (h : t.mem = m) (a : Nat) :
    memRead a t = memRead a (s.setMem m) := by
  rw [memRead, memRead, h, State.setMem_mem]

/-- Settles O37: what a step can leave in memory is said by `step_mem_cases`. -/
theorem onlyPushAndCallWriteMemory : Obligations.OnlyPushAndCallWriteMemory := by
  unfold Obligations.OnlyPushAndCallWriteMemory
  intro s t _ ht _
  obtain hmem | ⟨hop, v, hmem⟩ := step_mem_cases ht
  · have hsame : SameMemory s t := memRead_of_mem_eq (s := s) hmem
    exact ⟨fun _ _ => hsame, fun b _ => hsame b⟩
  · exact ⟨fun hpush hcall => (hop.elim hpush hcall).elim,
      fun b hb => (memRead_of_mem_eq hmem b).trans (sameMemoryBut_setMem_set (byte_lt _) v s b hb)⟩

/-- Settles O38, from the rules of PUSH and of HLT: the byte pushed stands at the next pc. -/
theorem aPushedByteIsFetchedAtOnce : Obligations.APushedByteIsFetchedAtOnce := by
  unfold Obligations.APushedByteIsFetchedAtOnce
  intro r s hr hbytes hne hval hsp
  obtain ⟨t, hpush, -, -, hstored, -, hpc, -, -, hstatus⟩ := pushFollowsItsRule.1 r s
  obtain ⟨hltEffect, hltRuns, -⟩ := hltFollowsItsRule
  obtain ⟨u, hhlt, hpc', hhalted, -⟩ := hltEffect t
  rw [if_neg hne, hval, hsp, ← hpc] at hstored
  exact ⟨t, u, (stepRunsTheInstructionAtPc s (.push r) hr hbytes).trans hpush,
    (hltRuns t (hstatus.trans hr) hstored).trans hhlt, hhalted, by rw [hpc', hpc]⟩

/-! ### Bounded runs and the host (70_reset_and_hazards.md R222, R225) -/

/-- A bounded run is the host's step iterated: past a stop the step gives the state back. -/
theorem runBounded_eq_iterate (n : Nat) (s : State) : runBounded n s = hostStep^[n] s := by
  induction n generalizing s with
  | zero => rfl
  | succ n ih =>
    rw [Function.iterate_succ_apply, ← ih]
    by_cases hr : s.status = .running
    · simp [runBounded, State.isRunning, hr]
    · rw [hostStep_stopped hr, runBounded_stopped hr, runBounded_stopped hr]

theorem core_run_eq_iterate (n : Nat) (s : State) : Host.Core.run core n s = .next (hostStep^[n] s) := by
  induction n generalizing s with
  | zero => rfl
  | succ n ih => exact (core_run_next core (step_eq_next_hostStep s)).trans (ih _)

/-- Settles O45: both runs are the host's step iterated. -/
theorem boundedRunsAreStepsAndContinue : Obligations.BoundedRunsAreStepsAndContinue := by
  unfold Obligations.BoundedRunsAreStepsAndContinue
  refine ⟨fun n s => ?run, fun m n s => ?continues, fun n _ h => runBounded_stopped h n⟩
  case run => rw [runBounded_eq_iterate]; exact core_run_eq_iterate n s
  case continues =>
    rw [runBounded_eq_iterate, runBounded_eq_iterate, runBounded_eq_iterate, Nat.add_comm,
      Function.iterate_add_apply]

/-- Settles O32: the step's fault is the one `FaultsWith` says, and a run of the stopped machine stays. -/
theorem aFaultStopsAtItsInstructionForGood : Obligations.AFaultStopsAtItsInstructionForGood := by
  unfold Obligations.AFaultStopsAtItsInstructionForGood
  intro s t f hr ht hf
  obtain ⟨u, hu, -, hpc, hout⟩ := (firstApplicableFaultIsRaised s hr).1 f (firstFault_of_faulted hr ht hf)
  obtain rfl : t = u := Host.Outcome.next.inj (ht.symm.trans hu)
  refine ⟨hpc, hout, fun n => ?_⟩
  obtain ⟨hrun, -, hstopped⟩ := boundedRunsAreStepsAndContinue
  exact (hrun n t).trans (congrArg _ (hstopped n t (by simp [hf])))

/-- Settles O34: each code belongs to one constructor. -/
theorem faultCodesAreAsSpecified : Obligations.FaultCodesAreAsSpecified := by
  unfold Obligations.FaultCodesAreAsSpecified
  intro f
  cases f <;> simp [Fault.code]

/-- The host may load until a step has been asked for, and a load then changes memory alone. -/
theorem apply_load_eq_some_iff {h h' : Session} {bytes : List Byte} :
    h.apply (.load bytes) = some h' ↔
      h.started = false ∧ bytes.length ≤ 256 ∧
        h' = { machine := h.machine.setMem (h.machine.mem.setBytes 0 bytes), started := false } := by
  rw [Session.apply]
  cases hs : h.started with
  | true => simp
  | false =>
    by_cases hlen : bytes.length ≤ 256
    · simp [load_of_length_le hlen, hlen, eq_comm]
    · simp [load_of_lt_length (Nat.lt_of_not_le hlen), hlen]

/-- Settles O46: the permission and the effect of a load are `apply_load_eq_some_iff`, the other moves are
always allowed. -/
theorem hostMovesAreAsTabled : Obligations.HostMovesAreAsTabled := by
  unfold Obligations.HostMovesAreAsTabled
  refine fun h => ⟨rfl, rfl, rfl, fun bytes => ?allowed, fun bytes h' hload => ?effect,
    ⟨_, rfl, rfl, rfl⟩, fun n => ⟨_, rfl, Bool.or_true _, rfl⟩⟩
  case allowed =>
    simp only [apply_load_eq_some_iff, exists_and_left, exists_eq, and_true]
  case effect =>
    obtain ⟨-, -, rfl⟩ := apply_load_eq_some_iff.1 hload
    exact ⟨rfl, rfl, rfl, rfl, rfl, rfl⟩

/-! ### The invariant (10_state.md R25, R28; 60_exceptions.md R172 to R175) -/

theorem inv_reset_setMem {m : Memory} (h : m.wf = true) : (State.reset.setMem m).Inv :=
  ⟨h, .inl rfl, Nat.zero_le 256, fun _ hf => by cases hf⟩

/-- Settles O40: a load writes canonical memory into the reset state. -/
theorem loadedStatesHaveTheInvariant : Obligations.LoadedStatesHaveTheInvariant := by
  unfold Obligations.LoadedStatesHaveTheInvariant
  refine ⟨inv_reset_setMem Memory.wf_reset, fun bytes s hload => ?_⟩
  by_cases hlen : bytes.length ≤ 256
  · rw [eq_setMem_of_load hload]
    exact inv_reset_setMem
      (Memory.wf_setBytes bytes Memory.wf_reset 0 ((Nat.zero_add _).trans_le hlen))
  · rw [load_of_lt_length (Nat.lt_of_not_le hlen)] at hload
    cases hload

/-- The canonical form of memory is kept by every step. -/
theorem step_keeps_mem_wf {s t : State} (hwf : s.mem.wf = true) (h : step s = .next t) :
    t.mem.wf = true := by
  obtain hmem | ⟨-, v, hmem⟩ := step_mem_cases h
  · rwa [hmem]
  · rw [hmem]
    exact Memory.wf_set hwf (byte_lt _) v

/-- A running machine within the pc bound takes no fault but those of R172, R173 and R175. -/
theorem legalAt_of_step {s t : State} {f : Fault} (hr : s.status = .running) (hpc : s.pc ≤ 256)
    (h : step s = .next t) (hf : t.status = .faulted f) : f.legalAt s.pc := by
  have htaken {g : Fault} (hg : fetchDecode s = .error g) : f = g := by
    rw [step_faulted hr hg] at h
    cases h
    exact (Status.faulted.inj hf).symm
  by_cases hin : s.pc < 256
  · have hread := memRead_inside hin s
    cases hop : opOf? (s.mem.get s.pc) with
    | none => exact htaken (fetchDecode_unrecognized hread hop) ▸ ⟨rfl, hop⟩
    | some o =>
      rw [opOf?_eq_some.1 hop] at hread
      obtain rfl | ⟨v, hhigh, rfl⟩ := fault_of_opcode hr hread h hf
      · exact rfl
      · exact hhigh
  · have hend : s.pc = 256 := by omega
    rw [htaken (fetchDecode_pastEnd (by omega)), hend]
    exact rfl

/-- A step leaves no illegal fault record. -/
theorem step_keeps_legalAt {s t : State} (hs : s.Inv) (h : step s = .next t) {f : Fault}
    (hf : t.status = .faulted f) : f.legalAt t.pc := by
  by_cases hr : s.status = .running
  · rw [step_pc_of_faulted hr h hf]
    exact legalAt_of_step hr hs.pc_le h hf
  · rw [step_stopped hr] at h
    cases h
    exact hs.fault_legal f hf

/-- Settles O41: each of the four parts is kept by every step. -/
theorem stepKeepsTheInvariant : Obligations.StepKeepsTheInvariant := by
  unfold Obligations.StepKeepsTheInvariant
  intro s t hs h
  exact ⟨step_keeps_mem_wf hs.mem_wf h, step_keeps_legalFlags hs.flags_legal h,
    step_keeps_pc_le hs.pc_le h, fun _ => step_keeps_legalAt hs h⟩

end Sys2Proof.Machine
